-- ==== Sys2Proof/Word.lean ====
section
/-! DEFINITION. The two widths the engine moves: bytes of a byte string (R14) and 32-bit register
words (R11 `REG_W`, R13). Everything that could need mending (byte order, XOR lanes) stands under
`Machine/`. -/

namespace Sys2Proof

/-- One byte of a byte string (R14). -/
abbrev Byte := BitVec 8

/-- One register word, `REG_W = ADDR_W = LEN_W = ITER_W = CTR_W = 32` bits (R11). -/
abbrev Word := BitVec 32

end Sys2Proof
end

