-- ==== Sys2Proof/Config.lean ====
section
/-! DEFINITION. What is fixed for this hardware (the variants, R2 and R9), the shape of the
hash-primitive port (R69), and the values the spec leaves open, as constants with no body: the
primitives of a platform that does not plug in FIPS 180-4 (R10, R12, U13) and the bytes of a raced or
abandoned output (U2, U3). -/

namespace Sys2Proof

/-- The three hash families (R2, R9). -/
inductive Variant where
  | sha1
  | sha256
  | sha512
  deriving DecidableEq, Repr

/-- A hash state of one variant, opaque to the engine (R38). The widths are the primitive's (R10):
160, 256 and 512 bits. -/
inductive HashState where
  | sha1 (h : BitVec 160)
  | sha256 (h : BitVec 256)
  | sha512 (h : BitVec 512)
  deriving DecidableEq, Repr

/-- One hash core (R69) with a `w`-bit state and a `d`-byte digest: three total, pure functions
(R70, R71). `emit` returns exactly `d` bytes; how they come from the state is the core's own
(N14). -/
structure HashCore (w d : Nat) where
  /-- `HInit` -/
  init : BitVec w
  /-- `HAbsorb`: the state after one more full block -/
  absorb : BitVec w → List Byte → BitVec w
  /-- `HEmit` -/
  emit : BitVec w → Vector Byte d
  deriving Inhabited

/-- The three independent cores `HP(1)`, `HP(2)`, `HP(3)` (R10, R69). -/
structure HashCores where
  sha1 : HashCore 160 20
  sha256 : HashCore 256 32
  sha512 : HashCore 512 64
  deriving Inhabited

/-- Which primitives the platform plugs into the port (R10, R12). A state names its choice, so a claim
about every state is a claim about every primitive that meets the contract. -/
inductive HashChoice where
  /-- SHA-1, SHA-256 and SHA-512 of FIPS 180-4 (R10; log entry 2) -/
  | fips
  /-- the `n`-th of a family of which nothing is known but the contract -/
  | other (n : Nat)
  deriving DecidableEq, Repr

/-- The parameter `HP(v)` of a platform that does not plug in FIPS 180-4 (R10, R12, U13). No body: a
proof knows of these cores only what the type says. -/
opaque Config.otherCores : Nat → HashCores

/-- `any value` for a byte of a raced or an abandoned output (U2, U3, R122, R126): byte `k` of draw `n`.
No body. -/
opaque Config.freeByte : Nat → Nat → Byte

/-- `2^ADDR_W`, the number of bytes of the memory space (R11, R45). -/
abbrev Config.memorySpace : Nat := 2 ^ 32

/-- `REG_WINDOW` in bytes (R11, R19). -/
abbrev Config.regWindow : Nat := 0x40

end Sys2Proof
end

