-- ==== Sys2Proof/Syntax.lean ====
section
/-! DEFINITION. The instructions: one constructor per row of spec/opcode_table.json. The host's
commands (R63) and the sequencer's micro-operations (R65) carry no operand fields; their operands are
registers and the snapshot (R63, R64). A `Code` is an instruction's encoded form, in one of the two
formats of R62. -/

namespace Sys2Proof

/-- A row of the opcode table. -/
inductive Instr where
  /-- CMD 0x00000000 (R99) -/
  | nop
  /-- CMD 0x00000001 (R100) -/
  | deriveSha1
  /-- CMD 0x00000002 (R101) -/
  | deriveSha256
  /-- CMD 0x00000003 (R102) -/
  | deriveSha512
  /-- UOP 0x0 (R98) -/
  | idle
  /-- UOP 0x1 (R86) -/
  | check
  /-- UOP 0x2 (R79) -/
  | keyload
  /-- UOP 0x3 (R80) -/
  | precomp
  /-- UOP 0x4 (R87) -/
  | u1
  /-- UOP 0x5 (R88) -/
  | uiter
  /-- UOP 0x6 (R89) -/
  | xoracc
  /-- UOP 0x7 (R90) -/
  | writeout
  /-- UOP 0x8 (R91) -/
  | finish
  deriving DecidableEq, Repr

/-- The two encoded formats (R62). -/
inductive Format where
  | cmd
  | uop
  deriving DecidableEq, Repr

/-- An encoded instruction: a command word as written to CMD, or a micro-operation code as held in
`st.phase` (R62). -/
inductive Code where
  | cmd (w : BitVec 32)
  | uop (c : BitVec 4)
  deriving DecidableEq, Repr

/-- The format each instruction is issued in (the table's "format" column). -/
def Instr.format : Instr → Format
  | .nop => .cmd
  | .deriveSha1 => .cmd
  | .deriveSha256 => .cmd
  | .deriveSha512 => .cmd
  | .idle => .uop
  | .check => .uop
  | .keyload => .uop
  | .precomp => .uop
  | .u1 => .uop
  | .uiter => .uop
  | .xoracc => .uop
  | .writeout => .uop
  | .finish => .uop

/-- The format of an encoded form. -/
def Code.format : Code → Format
  | .cmd _ => .cmd
  | .uop _ => .uop

end Sys2Proof
end

