-- ==== Sys2Proof/WellFormed.lean ====
section
/-! DEFINITION. Which encoded forms are well formed: the field checks of R63 for a command word and the
code range of R65 for a micro-operation. `Instr` itself carries no field, so every instruction is well
formed; the checks are on `Code`. -/

namespace Sys2Proof

/-- R63: RSV (bits 31:4) must be 0. -/
def Code.rsvIsZero : Code → Bool
  | .cmd w => w.extractLsb 31 4 == 0#28
  | .uop _ => true

/-- R63: OP (bits 3:0) is one of the defined commands 0x0 to 0x3. -/
def Code.opIsDefined : Code → Bool
  | .cmd w => decide ((w.extractLsb 3 0).toNat ≤ 3)
  | .uop _ => true

/-- R65: a micro-operation code is 0x0 to 0x8; 0x9 to 0xF are never held. -/
def Code.uopIsDefined : Code → Bool
  | .cmd _ => true
  | .uop c => decide (c.toNat ≤ 8)

/-- All checks together. -/
def Code.wellFormed (c : Code) : Bool :=
  c.rsvIsZero && c.opIsDefined && c.uopIsDefined

end Sys2Proof
end

