-- ==== Sys2Proof/Decode.lean ====
section
/-! DEFINITION. The two decoders (R62 to R66), total on every command word and every micro-operation
code and rejecting by name, and after them the encoder. -/

namespace Sys2Proof

/-- Why a form is no instruction. -/
inductive DecodeError where
  /-- R66: OP in 0x4 to 0xF or RSV not 0; what the engine then does is R104 or R105 -/
  | illegalCommand (w : BitVec 32)
  /-- R65, U10: a phase code 0x9 to 0xF -/
  | phaseNeverHeld (c : BitVec 4)
  deriving DecidableEq, Repr

/-- The field OP = `wdata[3:0]` of a command word (R63, R64). -/
def cmdOp (w : BitVec 32) : BitVec 4 := w.extractLsb 3 0

/-- The field RSV = `wdata[31:4]` of a command word (R63, R64). -/
def cmdRsv (w : BitVec 32) : BitVec 28 := w.extractLsb 31 4

/-- The command decoder (R63, R66): a word is a command only when RSV = 0 and OP is 0x0 to 0x3. -/
def decodeCmd (w : BitVec 32) : Except DecodeError Instr :=
  if cmdRsv w ≠ 0#28 then .error (.illegalCommand w)
  else if cmdOp w = 0x0#4 then .ok .nop
  else if cmdOp w = 0x1#4 then .ok .deriveSha1
  else if cmdOp w = 0x2#4 then .ok .deriveSha256
  else if cmdOp w = 0x3#4 then .ok .deriveSha512
  else .error (.illegalCommand w)

/-! The codes of `st.phase` (R65). -/

@[simp] abbrev phaseIdle : BitVec 4 := 0x0#4
@[simp] abbrev phaseCheck : BitVec 4 := 0x1#4
@[simp] abbrev phaseKeyload : BitVec 4 := 0x2#4
@[simp] abbrev phasePrecomp : BitVec 4 := 0x3#4
@[simp] abbrev phaseU1 : BitVec 4 := 0x4#4
@[simp] abbrev phaseUiter : BitVec 4 := 0x5#4
@[simp] abbrev phaseXoracc : BitVec 4 := 0x6#4
@[simp] abbrev phaseWriteout : BitVec 4 := 0x7#4
@[simp] abbrev phaseFinish : BitVec 4 := 0x8#4

/-- The micro-operation a phase code names (R65). -/
def decodeUop (c : BitVec 4) : Except DecodeError Instr :=
  if c = phaseIdle then .ok .idle
  else if c = phaseCheck then .ok .check
  else if c = phaseKeyload then .ok .keyload
  else if c = phasePrecomp then .ok .precomp
  else if c = phaseU1 then .ok .u1
  else if c = phaseUiter then .ok .uiter
  else if c = phaseXoracc then .ok .xoracc
  else if c = phaseWriteout then .ok .writeout
  else if c = phaseFinish then .ok .finish
  else .error (.phaseNeverHeld c)

/-- Decoding either format. -/
def decode : Code → Except DecodeError Instr
  | .cmd w => decodeCmd w
  | .uop c => decodeUop c

/-- The encoder, from the tables of R63 and R65. -/
def encode : Instr → Code
  | .nop => .cmd 0x00000000#32
  | .deriveSha1 => .cmd 0x00000001#32
  | .deriveSha256 => .cmd 0x00000002#32
  | .deriveSha512 => .cmd 0x00000003#32
  | .idle => .uop phaseIdle
  | .check => .uop phaseCheck
  | .keyload => .uop phaseKeyload
  | .precomp => .uop phasePrecomp
  | .u1 => .uop phaseU1
  | .uiter => .uop phaseUiter
  | .xoracc => .uop phaseXoracc
  | .writeout => .uop phaseWriteout
  | .finish => .uop phaseFinish

/-- The encoded form that the opcode table's numbering gives: a 32-bit row is a command word, a 4-bit
row (8 bits in whole bytes) a phase code with no bit above it set. Nothing else is a row's width. -/
def tableCode (nbits w : Nat) : Option Code :=
  if nbits = 32 then
    if w < 2 ^ 32 then some (.cmd (BitVec.ofNat 32 w)) else none
  else if nbits = 8 ∨ nbits = 4 then
    if w < 16 then some (.uop (BitVec.ofNat 4 w)) else none
  else none

/-- The instruction this decoder reads from a word of spec/opcode_table.json. The register port has no
byte order (R20) and a phase code is no byte string (R62), so the table's number is the word. -/
def decodeTableWord (nbits w : Nat) : Option Instr :=
  match tableCode nbits w with
  | some c =>
    match decode c with
    | .ok i => some i
    | .error _ => none
  | none => none

end Sys2Proof
end

