-- ==== Sys2Proof/Machine/State.lean ====
section
/-! DEFINITION. The machine's state as plain data: every register and internal element of spec
`10_state.md`, the memory behind the master port, what that memory and the host will do next (R8), and
the contract's record of bytes it leaves unspecified (U1 to U3) and of ranges the engine still owns (R126). The reasons a step can stop, and the
state after reset (R124). -/

namespace Sys2Proof.Machine

/-- Seven 32-bit values: the parameter registers (R28) and, copied at acceptance, the snapshot
`st.snap` (R33). -/
structure Params where
  pwAddr : Word
  pwLen : Word
  saltAddr : Word
  saltLen : Word
  iter : Word
  outAddr : Word
  outLen : Word
  deriving DecidableEq, Repr

/-- All seven values 0, as R124 has both the registers and the snapshot after reset. -/
def Params.zero : Params := ⟨0, 0, 0, 0, 0, 0, 0⟩

/-- The error names of R108; the 4-bit codes are `ErrCode.code`. The reserved codes 0x8 to 0xF are not
values of this type (U9). `derivationFailed` has a code and no rule that raises it (R110). -/
inductive ErrCode where
  | none
  | illegalCmd
  | invalidIterationCount
  | addrRange
  | overlap
  | blockOverflow
  | busError
  | derivationFailed
  deriving DecidableEq, Repr

/-- A run of `len` bytes from address `start`. -/
structure Range where
  start : Nat
  len : Nat
  deriving DecidableEq, Repr

/-- A host register access as it stands on the host's bus (R19): the byte address, the size in bytes,
read or write, and the data of a write. -/
structure Access where
  addr : Nat
  size : Nat
  write : Bool
  wdata : Word
  deriving DecidableEq, Repr

/-- `resp` of R19. -/
inductive Resp where
  | ok
  | err
  deriving DecidableEq, Repr

/-- The answer `(rdata, resp)` to a register access (R19). A write that gets OK carries no `rdata`:
the spec states none (log entry 9). -/
structure Reply where
  rdata : Option Word
  resp : Resp
  deriving DecidableEq, Repr

/-- What happens next around the engine. The host, other bus masters and the reset input step between
the engine's steps in any interleaving (R8); a state lists the interleaving it is in. -/
inductive Event where
  /-- the engine performs its next micro-operation (R85) -/
  | engine
  /-- the host makes one access on its bus (R19) -/
  | port (a : Access)
  /-- the host or another agent stores bytes into the system memory (R59, R126) -/
  | store (addr : Nat) (bytes : List Byte)
  /-- the reset input (R122) -/
  | hardReset
  deriving DecidableEq, Repr

/-- How the memory answers one master-port transaction (R46, R47, U11, U12). A `busErr` names its
error address by an offset, taken modulo the transaction's length, so that `a ≤ e < a + n` always holds.
`landed` is a set of byte positions as a bit mask: which bytes of an unsuccessful write were stored
(U5, U16). -/
inductive BusAnswer where
  | ok
  | busErr (offset : Nat) (landed : Nat)
  /-- never answered: the engine stays in the micro-operation (U12) -/
  | never (landed : Nat)
  deriving DecidableEq, Repr

/-- What the platform fixes (R12): the base of the register window and the hash primitives. No step
changes it, and no rule gives it a value. -/
structure Platform where
  regBase : Nat
  hash : HashChoice
  deriving DecidableEq, Repr

/-- The system memory of 2^32 bytes (R45): the bytes that are not 0x00, by rising address. An unlisted
address reads as 0x00 (log entry 4). -/
abbrev Memory := List Host.Cell

/-- The canonical form of a memory: addresses strictly rising and inside the memory space, no listed
byte equal to what an unlisted address reads as. -/
def Memory.wf (m : Memory) : Bool :=
  decide (m.Pairwise fun c d => c.1 < d.1) &&
    m.all fun c => decide (c.1 < Config.memorySpace) && decide (c.2 ≠ 0#8)

structure State where
  /-- CTRL.IE (R24) -/
  ie : Bool
  /-- STATUS.DONE (R25) -/
  done : Bool
  /-- STATUS.ERR (R25) -/
  err : Bool
  /-- STATUS.OVR (R25) -/
  ovr : Bool
  /-- STATUS.ERRCODE (R25, R108) -/
  errcode : ErrCode
  /-- PW_ADDR to OUT_LEN (R28) -/
  regs : Params
  /-- `st.phase`, STATUS.PHASE (R35); STATUS.BUSY is `State.busy`, computed from it -/
  phase : BitVec 4
  /-- `st.var`, STATUS.VARIANT (R34); `none` is the code 0 -/
  var : Option Variant
  /-- `st.snap` (R33) -/
  snap : Params
  /-- `st.nblk` (R36) -/
  nblk : Word
  /-- `st.i`, BLK_IDX (R30, R42) -/
  i : Word
  /-- `st.j`, ITER_CNT (R31, R42) -/
  j : Word
  /-- `st.err_addr`, ERR_ADDR (R32, R42) -/
  errAddr : Word
  /-- `st.K0`, absent outside KEYLOAD to PRECOMP (R37) -/
  k0 : Option (List Byte)
  /-- `st.ipad_state`, absent outside a derivation (R38) -/
  ipadState : Option HashState
  /-- `st.opad_state`, absent outside a derivation (R38) -/
  opadState : Option HashState
  /-- `st.U`, absent outside a derivation (R39) -/
  u : Option (List Byte)
  /-- `st.T`, absent outside a derivation (R39) -/
  t : Option (List Byte)
  /-- the master-port transaction of the current micro-operation has been issued and is not answered
  (U12) -/
  waiting : Bool
  /-- the memory agent's bytes (R8, R45) -/
  mem : Memory
  /-- the memory agent's next answers, one a transaction; after the last one it answers OK (U11) -/
  bus : List BusAnswer
  /-- the next events, first one first; after the last one the engine steps alone (R8) -/
  pending : List Event
  /-- the answer to the host's last register access (R19), none before the first -/
  reply : Option Reply
  /-- what the platform fixes (R12) -/
  platform : Platform
  /-- the model's own: an agent wrote an input range of the running derivation (U3, R126) -/
  disturbed : Bool
  /-- the model's own: ranges of memory whose content the contract leaves unspecified (U1 to U3) -/
  unspecified : List Range
  /-- the model's own: the accepted derivations whose DONE the host has not seen yet, the last one first
  (R126, R129) -/
  unseen : List Params
  /-- the model's own: how many draws of free bytes were made (U2, U3) -/
  draws : Nat
  deriving DecidableEq, Repr

/-- STATUS.BUSY: 1 exactly when `st.phase` is not IDLE (R35). -/
def State.busy (s : State) : Bool := decide (s.phase ≠ phaseIdle)

/-- The internal elements that are absent outside their window (R37 to R39). -/
inductive Slot where
  | k0
  | ipadState
  | opadState
  | u
  | t
  deriving DecidableEq, Repr

/-- Why a step stops. None of these is reached from a state that meets `Safety`'s invariant, apart from
`outsideMemory` for an agent's store that leaves the memory space. -/
inductive Fault where
  /-- raised by the engine's turn while PHASE holds 0x9 to 0xF, which is never held (R65, U10); safe -/
  | phaseNeverHeld (c : BitVec 4)
  /-- raised by a micro-operation that reads an absent element, "a fault of the model that no rule
  performs" (R37); safe -/
  | absentValue (slot : Slot)
  /-- raised by a micro-operation that needs B, D or LW while VARIANT is 0, for which R9 has no row;
  safe -/
  | noVariant
  /-- raised by an access to an address that does not exist (R45, R46, R47); safe -/
  | outsideMemory (addr len : Nat)
  /-- raised by WRITEOUT when `st.i` is 0 or its block starts at or after the end of the output, where
  no transaction is defined (R47: `n ≥ 1`; R93); safe -/
  | blockOutsideOutput
  deriving DecidableEq, Repr

/-- Why an instruction has no meaning here. -/
inductive Refusal where
  /-- raised by a row of exec that has no meaning yet; safe -/
  | notModelled (mnemonic : String)
  deriving DecidableEq, Repr

/-- How a step ends. -/
abbrev Result := Host.Outcome State Fault Refusal

/-- The machine right after reset (R124): every element at its reset value, nothing in memory, no event
pending and no answer arranged. The values the spec gives none for are in log entries 2, 4, 5, 6, 7
and 9. -/
def State.reset : State where
  ie := false
  done := false
  err := false
  ovr := false
  errcode := .none
  regs := Params.zero
  phase := phaseIdle
  var := none
  snap := Params.zero
  nblk := 0
  i := 0
  j := 0
  errAddr := 0
  k0 := none
  ipadState := none
  opadState := none
  u := none
  t := none
  waiting := false
  mem := []
  bus := []
  pending := []
  reply := none
  platform := { regBase := 0, hash := .fips }
  disturbed := false
  unspecified := []
  unseen := []
  draws := 0

end Sys2Proof.Machine
end

