-- ==== Sys2Proof/Machine/Operands.lean ====
section
/-! DEFINITION. Operands: the register map and window (R19, R22), the variant parameters (R9), the byte
strings and big-endian encodings of R14 and R15, and the ranges the snapshot names (R29). -/

namespace Sys2Proof.Machine

/-- The block size `B` in bytes (R9). -/
def blockSize : Variant → Nat
  | .sha1 => 64
  | .sha256 => 64
  | .sha512 => 128

/-- The digest size `D` in bytes (R9). -/
def digestSize : Variant → Nat
  | .sha1 => 20
  | .sha256 => 32
  | .sha512 => 64

/-- The width `LW` in bytes of the padding's length field (R9). -/
def lengthWidth : Variant → Nat
  | .sha1 => 8
  | .sha256 => 8
  | .sha512 => 16

/-- The code of STATUS.VARIANT (R9, R25): 0 when there is no variant. -/
def variantCode : Option Variant → BitVec 2
  | none => 0#2
  | some .sha1 => 1#2
  | some .sha256 => 2#2
  | some .sha512 => 3#2

/-- The codes of R108. -/
def errorCode : ErrCode → BitVec 4
  | .none => 0x0#4
  | .illegalCmd => 0x1#4
  | .invalidIterationCount => 0x2#4
  | .addrRange => 0x3#4
  | .overlap => 0x4#4
  | .blockOverflow => 0x5#4
  | .busError => 0x6#4
  | .derivationFailed => 0x7#4

/-- `BEn(v, w)`: the `w`-byte string of `v`, most significant byte first (R15). -/
def bigEndian (v w : Nat) : List Byte :=
  (List.range w).map fun k => BitVec.ofNat 8 (v >>> (8 * (w - 1 - k)))

/-- `BE32(i)` (R15, R84). -/
def be32 (i : Word) : List Byte :=
  [(i >>> 24).setWidth 8, (i >>> 16).setWidth 8, (i >>> 8).setWidth 8, i.setWidth 8]

/-- `xor(x, y)`: byte by byte, no lane touching another (R14, R94). -/
def xorBytes (x y : List Byte) : List Byte := List.zipWith (· ^^^ ·) x y

/-! ## The register window -/

/-- The defined registers of R22. -/
inductive Reg where
  | id
  | ctrl
  | status
  | cmd
  | pwAddr
  | pwLen
  | saltAddr
  | saltLen
  | iter
  | outAddr
  | outLen
  | blkIdx
  | iterCnt
  | errAddr
  deriving DecidableEq, Repr

/-- The offset of a register in the window (R22). -/
def regOffset : Reg → BitVec 6
  | .id => 0x00#6
  | .ctrl => 0x04#6
  | .status => 0x08#6
  | .cmd => 0x0C#6
  | .pwAddr => 0x10#6
  | .pwLen => 0x14#6
  | .saltAddr => 0x18#6
  | .saltLen => 0x1C#6
  | .iter => 0x20#6
  | .outAddr => 0x24#6
  | .outLen => 0x28#6
  | .blkIdx => 0x2C#6
  | .iterCnt => 0x30#6
  | .errAddr => 0x34#6

/-- The register at an offset; none at the reserved offsets 0x38 and 0x3C (R21, R22) and between
registers. -/
def regAt (off : BitVec 6) : Option Reg :=
  if off = 0x00#6 then some .id
  else if off = 0x04#6 then some .ctrl
  else if off = 0x08#6 then some .status
  else if off = 0x0C#6 then some .cmd
  else if off = 0x10#6 then some .pwAddr
  else if off = 0x14#6 then some .pwLen
  else if off = 0x18#6 then some .saltAddr
  else if off = 0x1C#6 then some .saltLen
  else if off = 0x20#6 then some .iter
  else if off = 0x24#6 then some .outAddr
  else if off = 0x28#6 then some .outLen
  else if off = 0x2C#6 then some .blkIdx
  else if off = 0x30#6 then some .iterCnt
  else if off = 0x34#6 then some .errAddr
  else none

/-- The offset a bus address has in the window at `base`; none outside the window (R19). -/
def windowOffset (base addr : Nat) : Option (BitVec 6) :=
  if base ≤ addr ∧ addr < base + Config.regWindow then some (BitVec.ofNat 6 (addr - base)) else none

/-- The ID constant "PBK2" (R23). -/
def idValue : Word := 0x50424B32#32

/-! ## Ranges -/

/-- Whether an address lies in a range. -/
def Range.contains (r : Range) (a : Nat) : Bool := decide (r.start ≤ a ∧ a < r.start + r.len)

/-- `overlaps` of R86: both non-empty and sharing a byte. -/
def Range.overlaps (r q : Range) : Bool :=
  decide (1 ≤ r.len ∧ 1 ≤ q.len ∧ r.start < q.start + q.len ∧ q.start < r.start + r.len)

/-- R86: a non-empty range that passes the top of the memory space. An empty one is never checked. -/
def Range.wraps (r : Range) : Bool :=
  decide (1 ≤ r.len ∧ Config.memorySpace < r.start + r.len)

/-- The bytes two ranges share. -/
def Range.inter (r q : Range) : Range :=
  { start := max r.start q.start
    len := min (r.start + r.len) (q.start + q.len) - max r.start q.start }

/-- The bytes of a range that exist (R45): a range CHECK has not seen yet may pass the top of memory. -/
def Range.inMemory (r : Range) : Range := r.inter ⟨0, Config.memorySpace⟩

/-- The bytes of `r` that are not in `w`, as at most two ranges. -/
def Range.minus (r w : Range) : List Range :=
  [{ start := r.start, len := min (r.start + r.len) w.start - r.start },
   { start := max r.start (w.start + w.len)
     len := r.start + r.len - max r.start (w.start + w.len) }].filter fun x => decide (x.len ≠ 0)

/-- The password range (R29). -/
def Params.pwRange (p : Params) : Range := ⟨p.pwAddr.toNat, p.pwLen.toNat⟩

/-- The salt range (R29). -/
def Params.saltRange (p : Params) : Range := ⟨p.saltAddr.toNat, p.saltLen.toNat⟩

/-- The output buffer (R29). -/
def Params.outRange (p : Params) : Range := ⟨p.outAddr.toNat, p.outLen.toNat⟩

/-- `ceil(L / D)` (R16, R36). -/
def blockCount (v : Variant) (outLen : Nat) : Nat := (outLen + digestSize v - 1) / digestSize v

end Sys2Proof.Machine
end

