-- ==== Sys2Proof/Machine/Flags.lean ====
section
/-! DEFINITION. The status word and its W1C bits (R25, R26), the control register (R24), the interrupt
output (R115), and what each register reads as (R21 to R32). -/

namespace Sys2Proof.Machine

/-- STATUS as software reads it (R25): bits 31:14 reserved, VARIANT 13:12, PHASE 11:8, ERRCODE 7:4,
OVR 3, ERR 2, DONE 1, BUSY 0. -/
def statusWord (s : State) : Word :=
  0#18 ++ variantCode s.var ++ s.phase ++ errorCode s.errcode ++ BitVec.ofBool s.ovr ++
    BitVec.ofBool s.err ++ BitVec.ofBool s.done ++ BitVec.ofBool s.busy

/-- CTRL as software reads it (R24): IE in bit 0, everything else 0. -/
def ctrlWord (s : State) : Word := 0#31 ++ BitVec.ofBool s.ie

/-- `irq = CTRL.IE AND STATUS.DONE` (R115). -/
def irq (s : State) : Bool := s.ie && s.done

/-- A write to STATUS (R26): bit 1 clears DONE, bit 2 ERR and ERRCODE, bit 3 OVR. -/
def clearStatus (w : Word) (s : State) : State :=
  { s with
    done := s.done && !w.getLsbD 1
    err := s.err && !w.getLsbD 2
    errcode := if w.getLsbD 2 then .none else s.errcode
    ovr := s.ovr && !w.getLsbD 3 }

/-- What a register reads as (R22 to R32). CMD is write-only and reads 0 (R27). -/
def readReg (r : Reg) (s : State) : Word :=
  match r with
  | .id => idValue
  | .ctrl => ctrlWord s
  | .status => statusWord s
  | .cmd => 0#32
  | .pwAddr => s.regs.pwAddr
  | .pwLen => s.regs.pwLen
  | .saltAddr => s.regs.saltAddr
  | .saltLen => s.regs.saltLen
  | .iter => s.regs.iter
  | .outAddr => s.regs.outAddr
  | .outLen => s.regs.outLen
  | .blkIdx => s.i
  | .iterCnt => s.j
  | .errAddr => s.errAddr

/-- What an offset reads as: 0 at a reserved one (R21). -/
def readOffset (off : BitVec 6) (s : State) : Word :=
  match regAt off with
  | some r => readReg r s
  | none => 0#32

end Sys2Proof.Machine
end

