-- ==== Sys2Proof/Machine/Ops.lean ====
section
/-! DEFINITION. The shared operations: the memory's bytes, the two master-port transactions (R46, R47),
the error end (R113), which is this engine's way of taking an exception, the host's clearing after it
(`clearStatus`, R116), acceptance, drop and rejection of a command (R103 to R105), reset (R122 to R124),
and an agent's store (R59, R126). -/

namespace Sys2Proof.Machine

/-! ## Memory -/

/-- The byte at an address; 0x00 where nothing is listed. -/
def Memory.readByte : Memory → Nat → Byte
  | [], _ => 0#8
  | (b, y) :: rest, a => if a < b then 0#8 else if a = b then y else Memory.readByte rest a

/-- Store one byte, keeping the canonical form. -/
def Memory.writeByte : Memory → Nat → Byte → Memory
  | [], a, x => if x = 0#8 then [] else [(a, x)]
  | (b, y) :: rest, a, x =>
    if a < b then (if x = 0#8 then (b, y) :: rest else (a, x) :: (b, y) :: rest)
    else if a = b then (if x = 0#8 then rest else (b, x) :: rest)
    else (b, y) :: Memory.writeByte rest a x

/-- The `n` bytes from address `a` on, in address order (R46, R49). -/
def Memory.readBytes (m : Memory) (a n : Nat) : List Byte :=
  (List.range n).map fun k => m.readByte (a + k)

/-- Store a byte string: byte `k` at address `a + k` (R47, R49). -/
def Memory.writeBytes : Memory → Nat → List Byte → Memory
  | m, _, [] => m
  | m, a, x :: xs => Memory.writeBytes (m.writeByte a x) (a + 1) xs

/-- Store only the bytes whose position is in the mask: what an unsuccessful write may leave (R47). -/
def Memory.writeLanded : Memory → Nat → List Byte → Nat → Memory
  | m, _, [], _ => m
  | m, a, x :: xs, mask =>
    Memory.writeLanded (if mask % 2 = 1 then m.writeByte a x else m) (a + 1) xs (mask / 2)

/-! ## The contract's record of unspecified bytes (U1 to U3) -/

/-- Add a range to the unspecified ones; an empty one adds nothing. -/
def taint (r : Range) (l : List Range) : List Range := if r.len = 0 then l else r :: l

/-- Take a freshly written range out of the unspecified ones. -/
def lift (w : Range) (l : List Range) : List Range := l.flatMap fun r => r.minus w

/-- Whether a byte is recorded as unspecified. -/
def recorded (l : List Range) (a : Nat) : Bool := l.any fun r => r.contains a

/-- `any value` for each of `n` bytes: draw `d` (U2, U3). -/
def freeBytes (d n : Nat) : List Byte := (List.range n).map (Config.freeByte d)

/-! ## The error end -/

/-- The errors a micro-operation raises (R108); the bus error carries its address (R113). -/
inductive AbortCause where
  | invalidIterationCount
  | blockOverflow
  | addrRange
  | overlap
  | busError (e : Word)
  deriving DecidableEq, Repr

/-- The ERRCODE of an error end (R108). -/
def abortCode : AbortCause → ErrCode
  | .invalidIterationCount => .invalidIterationCount
  | .blockOverflow => .blockOverflow
  | .addrRange => .addrRange
  | .overlap => .overlap
  | .busError _ => .busError

/-- ERR_ADDR after an error end: written by a bus error only (R32, R113). -/
def abortAddr : AbortCause → Word → Word
  | .busError e, _ => e
  | .invalidIterationCount, old => old
  | .blockOverflow, old => old
  | .addrRange, old => old
  | .overlap, old => old

/-- The key material becomes absent (R91, R113; D25). -/
def clearSecrets (s : State) : State :=
  { s with k0 := none, ipadState := none, opadState := none, u := none, t := none }

/-- `Abort(code)` and `Abort(code, e)` (R113): the error end of a derivation. The contract then leaves
the output range unspecified (R114, U1). -/
def abort (cause : AbortCause) (s : State) : State :=
  { clearSecrets s with
    errAddr := abortAddr cause s.errAddr
    errcode := abortCode cause
    err := true
    done := true
    phase := phaseIdle
    unspecified := taint s.snap.outRange s.unspecified }

/-! ## The master port -/

/-- The memory's answer to the next transaction (U11): the next one arranged, else OK. -/
def nextAnswer (s : State) : BusAnswer := s.bus.headD .ok

/-- The transaction has taken its answer. -/
def popAnswer (s : State) : State := { s with bus := s.bus.tail }

/-- The error address of a bus error in the transaction `(a, n)`: inside it (R46, R47). -/
def busErrorAddr (a n offset : Nat) : Word := BitVec.ofNat 32 (a + offset % n)

/-- The byte string at `(addr, len)`, read by one transaction, or none if `len` is 0 (R50, R79, R87),
handed to the rest of the micro-operation. A bus error is the error end (R112); a transaction that is
never answered keeps the engine where it is (U12). -/
def withString (addr len : Word) (s : State) (rest : List Byte → State → Result) : Result :=
  if len = 0 then rest [] s
  else if Config.memorySpace < addr.toNat + len.toNat then
    .fault (.outsideMemory addr.toNat len.toNat)
  else
    match nextAnswer s with
    | .ok => rest (s.mem.readBytes addr.toNat len.toNat) (popAnswer s)
    | .busErr offset _ =>
      .next (abort (.busError (busErrorAddr addr.toNat len.toNat offset)) (popAnswer s))
    | .never _ => .next { popAnswer s with waiting := true }

/-- `MemWrite(a, n, x)` (R47), then the rest of the micro-operation. -/
def withWrite (a n : Nat) (x : List Byte) (s : State) (rest : State → Result) : Result :=
  if Config.memorySpace < a + n then .fault (.outsideMemory a n)
  else
    match nextAnswer s with
    | .ok => rest { popAnswer s with mem := s.mem.writeBytes a x }
    | .busErr offset landed =>
      .next (abort (.busError (busErrorAddr a n offset))
        { popAnswer s with mem := s.mem.writeLanded a x landed })
    | .never landed =>
      .next { popAnswer s with mem := s.mem.writeLanded a x landed, waiting := true }

/-- The bytes of `x`, to be stored from `a` on, with a free byte for each one a race has made
unspecified (U3, R126). -/
def racedBytes (a : Nat) (x : List Byte) (s : State) : List Byte :=
  x.mapIdx fun k b =>
    if s.disturbed || recorded s.unspecified (a + k) then Config.freeByte s.draws k else b

/-- Whether a race has made any byte of a block's output range unspecified. Acceptance takes the output
range out of the record, so what stands in it during the derivation comes from a race. -/
def raced (w : Range) (s : State) : Bool :=
  s.disturbed || s.unspecified.any fun r => r.overlaps w

/-- What WRITEOUT stores at `w`: the block's own bytes, or under a race (U3, R126) free bytes, with the
block recorded as unspecified when an input was disturbed. -/
def outputOf (w : Range) (x : List Byte) (s : State) : List Byte × State :=
  if raced w s then
    (racedBytes w.start x s,
     { s with
       draws := s.draws + 1
       unspecified := if s.disturbed then taint w s.unspecified else s.unspecified })
  else (x, s)

/-! ## Reading what may be absent -/

/-- Read an internal element; an absent one is a fault of the model (R37 to R39). -/
def withValue {α : Type} (slot : Slot) (x : Option α) (rest : α → Result) : Result :=
  match x with
  | some a => rest a
  | none => .fault (.absentValue slot)

/-- The variant whose B, D and LW the micro-operation uses (R34). -/
def withVariant (s : State) (rest : Variant → Result) : Result :=
  match s.var with
  | some v => rest v
  | none => .fault .noVariant

/-! ## Commands -/

/-- `ACCEPT(op)` (R103). The output range of the new derivation leaves the record of unspecified bytes:
what is in it is the engine's business until the end (R59). The engine owns its ranges from here on
(R126). -/
def accept (v : Variant) (s : State) : State :=
  { s with
    snap := s.regs
    var := some v
    nblk := 0
    i := 0
    j := 0
    errAddr := 0
    done := false
    err := false
    errcode := .none
    phase := phaseCheck
    disturbed := false
    unspecified := lift s.regs.outRange s.unspecified
    unseen := s.regs :: s.unseen }

/-- DROP (R105). -/
def dropCommand (s : State) : State := { s with ovr := true }

/-- A DERIVE command of a variant (R97): accepted when idle, dropped when busy. -/
def derive (v : Variant) (s : State) : Result :=
  if s.busy then .next (dropCommand s) else .next (accept v s)

/-- ILLEGAL (R104). DESIGN CHOICE (log entry 21): OVR, which R104 does not name, is left as it is. -/
def rejectCommand (s : State) : State :=
  { s with var := none, done := true, err := true, errcode := .illegalCmd }

/-- A word that is no command, written to CMD (R97): dropped when busy, else rejected. -/
def illegalCommand (s : State) : State :=
  if s.busy then dropCommand s else rejectCommand s

/-! ## Reset -/

/-- What a reset leaves of a running derivation's output (R122, R123): `any value` in every byte of the
range (U2), a write that was outstanding included (U16). No other byte of memory is touched (R124; log
entry 6), and without a derivation nothing is. -/
def abandonOutput (s : State) : State :=
  if s.busy then
    { s with
      mem := s.mem.writeBytes s.snap.outRange.inMemory.start
        (freeBytes s.draws s.snap.outRange.inMemory.len)
      unspecified := taint s.snap.outRange s.unspecified
      draws := s.draws + 1 }
  else s

/-- Hardware reset and soft reset (R122 to R124): every element of the engine takes its reset value.
Memory outside an abandoned output, the platform and what the host and the memory do next are not the
engine's. -/
def resetEngine (s : State) : State :=
  { State.reset with
    mem := (abandonOutput s).mem
    bus := s.bus
    pending := s.pending
    reply := s.reply
    platform := s.platform
    draws := (abandonOutput s).draws
    unspecified := (abandonOutput s).unspecified }

/-- A write to CTRL (R24, R123): SRST acts and wins over IE. -/
def writeCtrl (w : Word) (s : State) : State :=
  if w.getLsbD 1 then resetEngine s else { s with ie := w.getLsbD 0 }

/-! ## Another agent's store -/

/-- The derivations whose ranges the engine owns (R126): the running one, and every accepted one until
the host has seen DONE = 1 or has reset the engine (log entry 22). -/
def State.owners (s : State) : List Params := if s.busy then s.snap :: s.unseen else s.unseen

/-- Whether an address lies in an output range the engine owns (R126). -/
def State.ownsOutput (s : State) (a : Nat) : Bool := recorded (s.owners.map Params.outRange) a

/-- The bytes of `w` that lie in one of the ranges. -/
def shared (w : Range) (l : List Range) : List Range :=
  (l.map w.inter).filter fun r => decide (r.len ≠ 0)

/-- What an agent's store puts at `a` on: free bytes in an owned output range (R126, U3). -/
def foreignBytes (a : Nat) (x : List Byte) (s : State) : List Byte :=
  x.mapIdx fun k b => if s.ownsOutput (a + k) then Config.freeByte s.draws k else b

/-- The host or another agent stores bytes (R59). A store into an owned output range leaves those bytes
unspecified; one into an input range of the running derivation disturbs it (R126, U3). -/
def agentStore (a : Nat) (x : List Byte) (s : State) : Result :=
  if Config.memorySpace < a + x.length then .fault (.outsideMemory a x.length)
  else
    let w : Range := ⟨a, x.length⟩
    .next { s with
      mem := s.mem.writeBytes a (foreignBytes a x s)
      disturbed := s.disturbed ||
        (s.busy && (w.overlaps s.snap.pwRange || w.overlaps s.snap.saltRange))
      unspecified := shared w (s.owners.map Params.outRange) ++ lift w s.unspecified
      draws := s.draws + 1 }

/-! ## What the host has seen -/

/-- The host has read STATUS: with DONE = 1 it has seen the end of every derivation accepted so far, and
the engine owns their ranges no longer (R126, R129). -/
def seeStatus (s : State) : State := if s.done then { s with unseen := [] } else s

/-- What an aligned 4-byte read at an offset does beside its answer: nothing to the engine (R21); one of
STATUS lets the host see DONE (R126). -/
def noteRead (off : BitVec 6) (s : State) : State :=
  if regAt off = some .status then seeStatus s else s

end Sys2Proof.Machine
end

