-- ==== Sys2Proof/Machine/Sha.lean ====
section
/-! DEFINITION. SHA-1, SHA-256 and SHA-512 as FIPS 180-4 defines them: the primitives with which the
known-answer vectors are reproduced (R10). PRESUMED: the spec leaves the functions out (R7, N4), so they
come from the standard; the vectors of `95_test_vectors.md` are what they are tested against (log
entry 2). The engine's rules do not depend on them: `HashChoice.other` is any other choice. -/

namespace Sys2Proof.Machine

/-- A byte string as a number, most significant byte first. -/
def natOfBytes (x : List Byte) : Nat := x.foldl (fun n b => n * 256 + b.toNat) 0

/-- A block as `n` words of `k` bytes each, most significant byte first. -/
def blockWords (w k : Nat) : Nat → List Byte → List (BitVec w)
  | 0, _ => []
  | n + 1, x => BitVec.ofNat w (natOfBytes (x.take k)) :: blockWords w k n (x.drop k)

/-- Word `k` of a hash state, word 0 the most significant. -/
def stateWord {m : Nat} (w n k : Nat) (h : BitVec m) : BitVec w := (h >>> (w * (n - 1 - k))).setWidth w

/-- A digest: the state's bytes, most significant first. -/
def digestBytes {m : Nat} (d : Nat) (h : BitVec m) : Vector Byte d :=
  Vector.ofFn fun k => (h >>> (8 * (d - 1 - k.val))).setWidth 8

/-! ## SHA-1 -/

structure Sha1Vars where
  a : BitVec 32
  b : BitVec 32
  c : BitVec 32
  d : BitVec 32
  e : BitVec 32

/-- The function of round `t`. -/
def sha1F (t : Nat) (b c d : BitVec 32) : BitVec 32 :=
  if t < 20 then (b &&& c) ^^^ (~~~b &&& d)
  else if t < 40 then b ^^^ c ^^^ d
  else if t < 60 then (b &&& c) ^^^ (b &&& d) ^^^ (c &&& d)
  else b ^^^ c ^^^ d

/-- The constant of round `t`. -/
def sha1K (t : Nat) : BitVec 32 :=
  if t < 20 then 0x5a827999#32
  else if t < 40 then 0x6ed9eba1#32
  else if t < 60 then 0x8f1bbcdc#32
  else 0xca62c1d6#32

/-- `n` rounds from round `t` on; the list holds the sixteen schedule words still needed. -/
def sha1Rounds : Nat → Nat → List (BitVec 32) → Sha1Vars → Sha1Vars
  | 0, _, _, s => s
  | _ + 1, _, [], s => s
  | n + 1, t, w :: ws, s =>
    let next := (ws.getD 12 0 ^^^ ws.getD 7 0 ^^^ ws.getD 1 0 ^^^ w).rotateLeft 1
    sha1Rounds n (t + 1) (ws ++ [next])
      ⟨s.a.rotateLeft 5 + sha1F t s.b s.c s.d + s.e + sha1K t + w, s.a, s.b.rotateLeft 30, s.c, s.d⟩

/-- One compression. -/
def sha1Absorb (h : BitVec 160) (blk : List Byte) : BitVec 160 :=
  let v : Nat → BitVec 32 := fun k => stateWord 32 5 k h
  let s := sha1Rounds 80 0 (blockWords 32 4 16 blk) ⟨v 0, v 1, v 2, v 3, v 4⟩
  (v 0 + s.a) ++ (v 1 + s.b) ++ (v 2 + s.c) ++ (v 3 + s.d) ++ (v 4 + s.e)

def sha1Core : HashCore 160 20 where
  init := 0x67452301efcdab8998badcfe10325476c3d2e1f0#160
  absorb := sha1Absorb
  emit := digestBytes 20

/-! ## SHA-256 and SHA-512: one algorithm on words of two widths -/

structure Sha2Vars (w : Nat) where
  a : BitVec w
  b : BitVec w
  c : BitVec w
  d : BitVec w
  e : BitVec w
  f : BitVec w
  g : BitVec w
  h : BitVec w

/-- The rotation and shift amounts of a width. -/
structure Sha2Shifts where
  big0 : Nat × Nat × Nat
  big1 : Nat × Nat × Nat
  small0 : Nat × Nat × Nat
  small1 : Nat × Nat × Nat

def sha256Shifts : Sha2Shifts := ⟨(2, 13, 22), (6, 11, 25), (7, 18, 3), (17, 19, 10)⟩

def sha512Shifts : Sha2Shifts := ⟨(28, 34, 39), (14, 18, 41), (1, 8, 7), (19, 61, 6)⟩

/-- The functions Sigma: three rotations. -/
def sha2Big {w : Nat} (r : Nat × Nat × Nat) (x : BitVec w) : BitVec w :=
  x.rotateRight r.1 ^^^ x.rotateRight r.2.1 ^^^ x.rotateRight r.2.2

/-- The functions sigma: two rotations and a shift. -/
def sha2Small {w : Nat} (r : Nat × Nat × Nat) (x : BitVec w) : BitVec w :=
  x.rotateRight r.1 ^^^ x.rotateRight r.2.1 ^^^ (x >>> r.2.2)

/-- One round a constant; the word list holds the sixteen schedule words still needed. -/
def sha2Rounds {w : Nat} (r : Sha2Shifts) :
    List (BitVec w) → List (BitVec w) → Sha2Vars w → Sha2Vars w
  | [], _, s => s
  | _ :: _, [], s => s
  | k :: ks, m :: ms, s =>
    let t1 := s.h + sha2Big r.big1 s.e + ((s.e &&& s.f) ^^^ (~~~s.e &&& s.g)) + k + m
    let t2 := sha2Big r.big0 s.a + ((s.a &&& s.b) ^^^ (s.a &&& s.c) ^^^ (s.b &&& s.c))
    let next := sha2Small r.small1 (ms.getD 13 0) + ms.getD 8 0 + sha2Small r.small0 (ms.getD 0 0) + m
    sha2Rounds r ks (ms ++ [next]) ⟨t1 + t2, s.a, s.b, s.c, s.d + t1, s.e, s.f, s.g⟩

/-- The eighty constants: the leading 64 bits of the fractional parts of the cube roots of the first
eighty primes. -/
def sha512K : List (BitVec 64) :=
  [0x428a2f98d728ae22, 0x7137449123ef65cd, 0xb5c0fbcfec4d3b2f, 0xe9b5dba58189dbbc,
   0x3956c25bf348b538, 0x59f111f1b605d019, 0x923f82a4af194f9b, 0xab1c5ed5da6d8118] ++
  [0xd807aa98a3030242, 0x12835b0145706fbe, 0x243185be4ee4b28c, 0x550c7dc3d5ffb4e2,
   0x72be5d74f27b896f, 0x80deb1fe3b1696b1, 0x9bdc06a725c71235, 0xc19bf174cf692694] ++
  [0xe49b69c19ef14ad2, 0xefbe4786384f25e3, 0x0fc19dc68b8cd5b5, 0x240ca1cc77ac9c65,
   0x2de92c6f592b0275, 0x4a7484aa6ea6e483, 0x5cb0a9dcbd41fbd4, 0x76f988da831153b5] ++
  [0x983e5152ee66dfab, 0xa831c66d2db43210, 0xb00327c898fb213f, 0xbf597fc7beef0ee4,
   0xc6e00bf33da88fc2, 0xd5a79147930aa725, 0x06ca6351e003826f, 0x142929670a0e6e70] ++
  [0x27b70a8546d22ffc, 0x2e1b21385c26c926, 0x4d2c6dfc5ac42aed, 0x53380d139d95b3df,
   0x650a73548baf63de, 0x766a0abb3c77b2a8, 0x81c2c92e47edaee6, 0x92722c851482353b] ++
  [0xa2bfe8a14cf10364, 0xa81a664bbc423001, 0xc24b8b70d0f89791, 0xc76c51a30654be30,
   0xd192e819d6ef5218, 0xd69906245565a910, 0xf40e35855771202a, 0x106aa07032bbd1b8] ++
  [0x19a4c116b8d2d0c8, 0x1e376c085141ab53, 0x2748774cdf8eeb99, 0x34b0bcb5e19b48a8,
   0x391c0cb3c5c95a63, 0x4ed8aa4ae3418acb, 0x5b9cca4f7763e373, 0x682e6ff3d6b2b8a3] ++
  [0x748f82ee5defb2fc, 0x78a5636f43172f60, 0x84c87814a1f0ab72, 0x8cc702081a6439ec,
   0x90befffa23631e28, 0xa4506cebde82bde9, 0xbef9a3f7b2c67915, 0xc67178f2e372532b] ++
  [0xca273eceea26619c, 0xd186b8c721c0c207, 0xeada7dd6cde0eb1e, 0xf57d4f7fee6ed178,
   0x06f067aa72176fba, 0x0a637dc5a2c898a6, 0x113f9804bef90dae, 0x1b710b35131c471b] ++
  [0x28db77f523047d84, 0x32caab7b40c72493, 0x3c9ebe0a15c9bebc, 0x431d67c49c100d4c,
   0x4cc5d4becb3e42b6, 0x597f299cfc657e2a, 0x5fcb6fab3ad6faec, 0x6c44198c4a475817]

/-- The sixty-four constants of SHA-256 are the leading halves of the first sixty-four. -/
def sha256K : List (BitVec 32) := (sha512K.take 64).map fun (k : BitVec 64) => (k >>> 32).setWidth 32

/-- The eight words of a state as the round variables. -/
def sha2Vars {m : Nat} (w : Nat) (h : BitVec m) : Sha2Vars w :=
  let v : Nat → BitVec w := fun k => stateWord w 8 k h
  ⟨v 0, v 1, v 2, v 3, v 4, v 5, v 6, v 7⟩

def sha256Absorb (h : BitVec 256) (blk : List Byte) : BitVec 256 :=
  let p := sha2Vars 32 h
  let s := sha2Rounds sha256Shifts sha256K (blockWords 32 4 16 blk) p
  (p.a + s.a) ++ (p.b + s.b) ++ (p.c + s.c) ++ (p.d + s.d) ++
    (p.e + s.e) ++ (p.f + s.f) ++ (p.g + s.g) ++ (p.h + s.h)

def sha512Absorb (h : BitVec 512) (blk : List Byte) : BitVec 512 :=
  let p := sha2Vars 64 h
  let s := sha2Rounds sha512Shifts sha512K (blockWords 64 8 16 blk) p
  (p.a + s.a) ++ (p.b + s.b) ++ (p.c + s.c) ++ (p.d + s.d) ++
    (p.e + s.e) ++ (p.f + s.f) ++ (p.g + s.g) ++ (p.h + s.h)

def sha256Core : HashCore 256 32 where
  init :=
    0x6a09e667bb67ae853c6ef372a54ff53a510e527f9b05688c1f83d9ab5be0cd19#256
  absorb := sha256Absorb
  emit := digestBytes 32

def sha512Core : HashCore 512 64 where
  init :=
    0x6a09e667f3bcc908bb67ae8584caa73b3c6ef372fe94f82ba54ff53a5f1d36f1#256 ++
      0x510e527fade682d19b05688c2b3e6c1f1f83d9abfb41bd6b5be0cd19137e2179#256
  absorb := sha512Absorb
  emit := digestBytes 64

/-- The primitives of a platform (R10, R12). -/
def coresOf : HashChoice → HashCores
  | .fips => { sha1 := sha1Core, sha256 := sha256Core, sha512 := sha512Core }
  | .other n => Config.otherCores n

end Sys2Proof.Machine
end

