-- ==== Sys2Proof/Machine/HashPort.lean ====
section
/-! DEFINITION. The hash-primitive port (R69) and the functions the engine builds on it: absorption of
full blocks (R73), padding (R74), finalisation (R75), the complete hash (R76), and the HMAC evaluation
from the two precomputed states (R82). They are functions, not instructions. -/

namespace Sys2Proof.Machine

/-- `HInit(v)` (R69). -/
def hInit (c : HashCores) : Variant → HashState
  | .sha1 => .sha1 c.sha1.init
  | .sha256 => .sha256 c.sha256.init
  | .sha512 => .sha512 c.sha512.init

/-- `HAbsorb(v, S, blk)` (R69). The variant is the state's own. -/
def hAbsorb (c : HashCores) (S : HashState) (blk : List Byte) : HashState :=
  match S with
  | .sha1 h => .sha1 (c.sha1.absorb h blk)
  | .sha256 h => .sha256 (c.sha256.absorb h blk)
  | .sha512 h => .sha512 (c.sha512.absorb h blk)

/-- `HEmit(v, S)` (R69). -/
def hEmit (c : HashCores) (S : HashState) : List Byte :=
  match S with
  | .sha1 h => (c.sha1.emit h).toList
  | .sha256 h => (c.sha256.emit h).toList
  | .sha512 h => (c.sha512.emit h).toList

/-- The variant a hash state belongs to (R38). -/
def stateVariant : HashState → Variant
  | .sha1 _ => .sha1
  | .sha256 _ => .sha256
  | .sha512 _ => .sha512

/-- The loop of R73: absorb the first `n` blocks of `b` bytes. -/
def absorbBlocks (c : HashCores) (b : Nat) : Nat → HashState → List Byte → HashState
  | 0, S, _ => S
  | n + 1, S, x => absorbBlocks c b n (hAbsorb c S (x.take b)) (x.drop b)

/-- `HAbsorbAll(v, S, X)`: the state after every full block, and the tail (R73). -/
def hAbsorbAll (c : HashCores) (v : Variant) (S : HashState) (x : List Byte) :
    HashState × List Byte :=
  let n := x.length / blockSize v
  (absorbBlocks c (blockSize v) n S x, x.drop (n * blockSize v))

/-- The number of zero bytes of the padding: the least `z` that fills the last block (R74). -/
def padZeros (v : Variant) (tailLen : Nat) : Nat :=
  (blockSize v - (tailLen + 1 + lengthWidth v) % blockSize v) % blockSize v

/-- `Pad(v, tail, total)`, `total` in bytes and the field in bits (R74, C4). -/
def pad (v : Variant) (tail : List Byte) (total : Nat) : List Byte :=
  tail ++ [0x80#8] ++ List.replicate (padZeros v tail.length) 0x00#8 ++
    bigEndian (8 * total) (lengthWidth v)

/-- `HFinalize(v, S, tail, total)` (R75). -/
def hFinalize (c : HashCores) (v : Variant) (S : HashState) (tail : List Byte) (total : Nat) :
    List Byte :=
  hEmit c (hAbsorbAll c v S (pad v tail total)).1

/-- `HDigest(v, X)` (R76). -/
def hDigest (c : HashCores) (v : Variant) (x : List Byte) : List Byte :=
  let r := hAbsorbAll c v (hInit c v) x
  hFinalize c v r.1 r.2 x.length

/-- `HMACs(M)` under the key state `(ipad, opad)` (R82, C3). -/
def hmacFrom (c : HashCores) (v : Variant) (ipad opad : HashState) (m : List Byte) : List Byte :=
  let r := hAbsorbAll c v ipad m
  let inner := hFinalize c v r.1 r.2 (blockSize v + m.length)
  hFinalize c v opad inner (blockSize v + digestSize v)

/-- The primitives the platform has plugged in (R10, R12). -/
def cores (s : State) : HashCores := coresOf s.platform.hash

end Sys2Proof.Machine
end

