-- ==== Sys2Proof/Machine/BlockLoop.lean ====
section
/-! DEFINITION. The meanings of CHECK, of the block loop U1, UITER, XORACC, WRITEOUT, and of FINISH
(R86 to R91). Arithmetic is on unbounded naturals (R13, R93). -/

namespace Sys2Proof.Machine

/-- What CHECK finds wrong once the iteration count is not 0, first match first (R86, R111). -/
def checkRanges (v : Variant) (p : Params) : Option AbortCause :=
  if 2 ^ 32 - 1 < blockCount v p.outLen.toNat then some .blockOverflow
  else if p.pwRange.wraps || p.saltRange.wraps || p.outRange.wraps then some .addrRange
  else if p.outRange.overlaps p.pwRange || p.outRange.overlaps p.saltRange then some .overlap
  else none

/-- CHECK (R86). The iteration count is looked at before anything of the variant is needed. -/
def execCheck (s : State) : Result :=
  if s.snap.iter = 0 then .next (abort .invalidIterationCount s)
  else
    withVariant s fun v =>
      match checkRanges v s.snap with
      | some cause => .next (abort cause s)
      | none =>
        let n := blockCount v s.snap.outLen.toNat
        .next { s with
          nblk := BitVec.ofNat 32 n
          phase := if n = 0 then phaseFinish else phaseKeyload }

/-- U1 (R87). -/
def execU1 (s : State) : Result :=
  withVariant s fun v =>
    withValue .ipadState s.ipadState fun ipad =>
      withValue .opadState s.opadState fun opad =>
        withString s.snap.saltAddr s.snap.saltLen s fun salt s' =>
          let u := hmacFrom (cores s) v ipad opad (salt ++ be32 s.i)
          .next { s' with
            u := some u
            t := some u
            j := 1
            phase := if s.snap.iter = 1 then phaseWriteout else phaseUiter }

/-- UITER (R88). -/
def execUiter (s : State) : Result :=
  withVariant s fun v =>
    withValue .ipadState s.ipadState fun ipad =>
      withValue .opadState s.opadState fun opad =>
        withValue .u s.u fun u =>
          .next { s with
            u := some (hmacFrom (cores s) v ipad opad u)
            j := BitVec.ofNat 32 (s.j.toNat + 1)
            phase := phaseXoracc }

/-- XORACC (R89). -/
def execXoracc (s : State) : Result :=
  withValue .t s.t fun t =>
    withValue .u s.u fun u =>
      .next { s with
        t := some (xorBytes t u)
        phase := if s.j = s.snap.iter then phaseWriteout else phaseUiter }

/-- Where in the output buffer block `i` starts (R90). -/
def blockOffset (v : Variant) (i : Word) : Nat := (i.toNat - 1) * digestSize v

/-- The range WRITEOUT writes: `k = min(D, L - off)` bytes from `out_addr + off` (R90). -/
def blockRange (v : Variant) (s : State) : Range :=
  { start := s.snap.outAddr.toNat + blockOffset v s.i
    len := min (digestSize v) (s.snap.outLen.toNat - blockOffset v s.i) }

/-- The successor of WRITEOUT (R85, R90). -/
def nextBlock (s : State) : State :=
  if s.i = s.nblk then { s with phase := phaseFinish }
  else { s with i := BitVec.ofNat 32 (s.i.toNat + 1), phase := phaseU1 }

/-- WRITEOUT (R90). -/
def execWriteout (s : State) : Result :=
  withVariant s fun v =>
    withValue .t s.t fun t =>
      if s.i = 0 ∨ s.snap.outLen.toNat ≤ blockOffset v s.i then .fault .blockOutsideOutput
      else
        let w := blockRange v s
        let out := outputOf w (t.take w.len) s
        withWrite w.start w.len out.1 out.2 fun s' => .next (nextBlock s')

/-- FINISH (R91): the key material becomes absent and DONE is set. -/
def execFinish (s : State) : Result :=
  .next { s with
    ipadState := none
    opadState := none
    u := none
    t := none
    done := true
    phase := phaseIdle }

end Sys2Proof.Machine
end

