-- ==== Sys2Proof/Machine/Commands.lean ====
section
/-! DEFINITION. The meanings of the host's commands (R98 to R103) and of IDLE. -/

namespace Sys2Proof.Machine

/-- NOP (R99): no effect, busy or not. -/
def execNop (s : State) : Result := .next s

/-- DERIVE_SHA1 (R100, R97). -/
def execDeriveSha1 (s : State) : Result := derive .sha1 s

/-- DERIVE_SHA256 (R101, R97). -/
def execDeriveSha256 (s : State) : Result := derive .sha256 s

/-- DERIVE_SHA512 (R102, R97). -/
def execDeriveSha512 (s : State) : Result := derive .sha512 s

/-- IDLE (R98, R85): the engine has no step of its own; its turn changes nothing (log entry 8). -/
def execIdle (s : State) : Result := .next s

end Sys2Proof.Machine
end

