-- ==== Sys2Proof/Machine/Hmac.lean ====
section
/-! DEFINITION. The meanings of the two micro-operations that build the HMAC key state (R79, R80). -/

namespace Sys2Proof.Machine

/-- `K` of R79: a password longer than a block is hashed, a shorter one is taken as it is. -/
def hmacKey (c : HashCores) (v : Variant) (p : List Byte) : List Byte :=
  if blockSize v < p.length then hDigest c v p else p

/-- `K0`: the key zero-padded to a block (R79). -/
def paddedKey (c : HashCores) (v : Variant) (p : List Byte) : List Byte :=
  hmacKey c v p ++ List.replicate (blockSize v - (hmacKey c v p).length) 0x00#8

/-- KEYLOAD (R79). -/
def execKeyload (s : State) : Result :=
  withVariant s fun v =>
    withString s.snap.pwAddr s.snap.pwLen s fun p s' =>
      .next { s' with k0 := some (paddedKey (cores s) v p), phase := phasePrecomp }

/-- The key XORed with one byte repeated over the block: the ipad and opad blocks (R80). -/
def padBlock (v : Variant) (k0 : List Byte) (b : Byte) : List Byte :=
  xorBytes k0 (List.replicate (blockSize v) b)

/-- PRECOMP (R80). -/
def execPrecomp (s : State) : Result :=
  withVariant s fun v =>
    withValue .k0 s.k0 fun k =>
      .next { s with
        ipadState := some (hAbsorb (cores s) (hInit (cores s) v) (padBlock v k 0x36#8))
        opadState := some (hAbsorb (cores s) (hInit (cores s) v) (padBlock v k 0x5c#8))
        k0 := none
        i := 1
        phase := phaseU1 }

end Sys2Proof.Machine
end

