-- ==== Sys2Proof/Machine/Dispatch.lean ====
section
/-! DEFINITION. One arm per row of the opcode table. -/

namespace Sys2Proof.Machine

def exec (i : Instr) (s : State) : Host.Outcome State Fault Refusal :=
  match i with
  | .nop => Sys2Proof.Machine.execNop s
  | .deriveSha1 => Sys2Proof.Machine.execDeriveSha1 s
  | .deriveSha256 => Sys2Proof.Machine.execDeriveSha256 s
  | .deriveSha512 => Sys2Proof.Machine.execDeriveSha512 s
  | .idle => Sys2Proof.Machine.execIdle s
  | .check => Sys2Proof.Machine.execCheck s
  | .keyload => Sys2Proof.Machine.execKeyload s
  | .precomp => Sys2Proof.Machine.execPrecomp s
  | .u1 => Sys2Proof.Machine.execU1 s
  | .uiter => Sys2Proof.Machine.execUiter s
  | .xoracc => Sys2Proof.Machine.execXoracc s
  | .writeout => Sys2Proof.Machine.execWriteout s
  | .finish => Sys2Proof.Machine.execFinish s

end Sys2Proof.Machine
end

