-- ==== Sys2Proof/Machine/Port.lean ====
section
/-! DEFINITION. How instructions reach exec: a command word through the register port (R19 to R28, R97),
a micro-operation through the engine's turn (R85), and how the next event is taken. `Step.lean` only
calls these. -/

namespace Sys2Proof.Machine

/-- A write to CMD (R27, R97): the decoder runs at once, in the same step. -/
def presentCommand (w : Word) (s : State) : Result :=
  match decodeCmd w with
  | .ok i => exec i s
  | .error _ => .next (illegalCommand s)

/-- The effect of an aligned 4-byte write on a register (R21 to R28): read-only registers ignore it. -/
def writeReg (r : Reg) (w : Word) (s : State) : Result :=
  match r with
  | .id => .next s
  | .ctrl => .next (writeCtrl w s)
  | .status => .next (clearStatus w s)
  | .cmd => presentCommand w s
  | .pwAddr => .next { s with regs := { s.regs with pwAddr := w } }
  | .pwLen => .next { s with regs := { s.regs with pwLen := w } }
  | .saltAddr => .next { s with regs := { s.regs with saltAddr := w } }
  | .saltLen => .next { s with regs := { s.regs with saltLen := w } }
  | .iter => .next { s with regs := { s.regs with iter := w } }
  | .outAddr => .next { s with regs := { s.regs with outAddr := w } }
  | .outLen => .next { s with regs := { s.regs with outLen := w } }
  | .blkIdx => .next s
  | .iterCnt => .next s
  | .errAddr => .next s

/-- The effect of an aligned 4-byte write at an offset; a reserved one ignores it (R21). -/
def writeOffset (off : BitVec 6) (w : Word) (s : State) : Result :=
  match regAt off with
  | some r => writeReg r w s
  | none => .next s

/-- R20: only a 4-byte access at a multiple of 4 is taken. -/
def portAccepts (off : BitVec 6) (size : Nat) : Bool :=
  decide (size = 4) && off.extractLsb 1 0 == 0#2

/-- One access inside the window (R19 to R21), with its answer. -/
def windowAccess (off : BitVec 6) (a : Access) (s : State) : Result :=
  if portAccepts off a.size then
    if a.write then writeOffset off a.wdata { s with reply := some ⟨none, .ok⟩ }
    else .next (noteRead off { s with reply := some ⟨some (readOffset off s), .ok⟩ })
  else .next { s with reply := some ⟨some 0#32, .err⟩ }

/-- One access on the host's bus (R19): outside the window it is not the engine's. -/
def hostAccess (a : Access) (s : State) : Result :=
  match windowOffset s.platform.regBase a.addr with
  | some off => windowAccess off a s
  | none => .next s

/-- The engine's turn (R85): the micro-operation that `st.phase` names, unless the engine is still
waiting for an answer that never comes (U12). -/
def engineTurn (s : State) : Result :=
  if s.waiting then .next s
  else
    match decodeUop s.phase with
    | .ok i => exec i s
    | .error _ => .fault (.phaseNeverHeld s.phase)

/-- Perform one event (R8). -/
def perform (e : Event) (s : State) : Result :=
  match e with
  | .engine => engineTurn s
  | .port a => hostAccess a s
  | .store a x => agentStore a x s
  | .hardReset => .next (resetEngine s)

/-- The next event, or the engine's turn when none is pending (R8). -/
def takeEvent (s : State) : Result :=
  match s.pending with
  | [] => engineTurn s
  | e :: rest => perform e { s with pending := rest }

/-- The host's access that writes a word to CMD. -/
def cmdWrite (s : State) (w : Word) : Event :=
  .port { addr := s.platform.regBase + 0x0C, size := 4, write := true, wdata := w }

/-- Put a coded instruction where the next step takes it: a command word as the host's next access, a
phase code in `st.phase` with the engine's turn next and no transaction outstanding. -/
def placeCode (c : Code) (s : State) : State :=
  match c with
  | .cmd w => { s with pending := cmdWrite s w :: s.pending }
  | .uop p => { s with phase := p, waiting := false, pending := .engine :: s.pending }

end Sys2Proof.Machine
end

