-- ==== Sys2Proof/Machine/Step.lean ====
section
/-! DEFINITION. The step, and where the next instruction is placed (log entry 7). -/

namespace Sys2Proof.Machine

/-- One step: the next pending event, else the engine's turn. -/
def step (s : State) : Host.Outcome State Fault Refusal := takeEvent s

/-- The state whose very next step runs the instruction of the opcode table's word `w`; a word of no
row's width leaves the state as it is. -/
def State.withFetchWord (s : State) (nbits w : Nat) : State :=
  match tableCode nbits w with
  | some c => placeCode c s
  | none => s

end Sys2Proof.Machine
end

