-- ==== Sys2Proof/Machine/Host.lean ====
section
/-! DEFINITION. The host-program notation (R67) and its pseudo-instructions (R68), as the events they
put before the engine. `base` is REG_BASE. -/

namespace Sys2Proof.Machine

/-- `WR <REG>, <value>` (R67). -/
def wr (base : Nat) (r : Reg) (v : Word) : Event :=
  .port { addr := base + (regOffset r).toNat, size := 4, write := true, wdata := v }

/-- `RD <REG>` (R67). -/
def rd (base : Nat) (r : Reg) : Event :=
  .port { addr := base + (regOffset r).toNat, size := 4, write := false, wdata := 0 }

/-- `MEM <addr>: <bytes>` (R67): start content, not an action. -/
def memAt (l : List (Nat × List Byte)) : Memory := l.foldl (fun m p => m.writeBytes p.1 p.2) []

/-- `WAIT` on a register, unrolled `n` times: the engine steps, the host reads. The loop itself is the
host's (R67). -/
def waitOn (base : Nat) (r : Reg) : Nat → List Event
  | 0 => []
  | n + 1 => .engine :: rd base r :: waitOn base r n

/-- The command word of a variant: OP equals the variant code (R63). -/
def deriveWord : Variant → Word
  | .sha1 => 1#32
  | .sha256 => 2#32
  | .sha512 => 3#32

/-- `DERIVE.<V> pa, pl, sa, sl, c, oa, ol` (R68). -/
def deriveScript (base : Nat) (v : Variant) (p : Params) : List Event :=
  [wr base .pwAddr p.pwAddr, wr base .pwLen p.pwLen, wr base .saltAddr p.saltAddr,
   wr base .saltLen p.saltLen, wr base .iter p.iter, wr base .outAddr p.outAddr,
   wr base .outLen p.outLen, wr base .cmd (deriveWord v)]

/-- `CLEAR` (R68, R116). -/
def clearScript (base : Nat) : List Event := [wr base .status 0x0000000E#32]

/-- `SRST` (R68). -/
def srstScript (base : Nat) : List Event := [wr base .ctrl 0x00000002#32]

/-- `NOP` (R68). -/
def nopScript (base : Nat) : List Event := [wr base .cmd 0x00000000#32]

/-- `SYNC` (R68), unrolled `n` times. -/
def syncScript (base n : Nat) : List Event := waitOn base .status n

end Sys2Proof.Machine
end

