-- ==== Sys2Proof/Safety.lean ====
section
/-! DEFINITION. The terms claims are made in: what a host may rely on (R114, R126, R129), the invariant
of the machine, and the function the engine computes (R2, R79 to R90), written without the machine. -/

namespace Sys2Proof.Machine

/-! ## What a host may rely on -/

/-- Whether the contract lets an agent rely on the byte at an address. It does not after an error end or
an abandoned derivation (U1, U2), for a raced byte (U3), nor for an output range the engine owns: while
BUSY = 1 (R59, U15), and until the host has seen DONE = 1 (R126, R129). -/
def State.specified (s : State) (a : Nat) : Bool :=
  !recorded s.unspecified a && !s.ownsOutput a

/-- R129: the output may be taken only when STATUS reads DONE = 1 and ERR = 0. -/
def State.outputValid (s : State) : Bool := s.done && !s.err

/-- R126: an event by which no agent touches a range that the engine owns. -/
def Event.respects (s : State) : Event → Bool
  | .store a x => s.owners.all fun p =>
    !((⟨a, x.length⟩ : Range).overlaps p.pwRange ||
      (⟨a, x.length⟩ : Range).overlaps p.saltRange ||
      (⟨a, x.length⟩ : Range).overlaps p.outRange)
  | .engine => true
  | .port _ => true
  | .hardReset => true

/-! ## The invariant -/

/-- All key material is absent (R37 to R39, R91, R113). -/
def State.secretsAbsent (s : State) : Prop :=
  s.k0 = none ∧ s.ipadState = none ∧ s.opadState = none ∧ s.u = none ∧ s.t = none

/-- Present, and a hash state of variant `v` (R38). -/
def HoldsState (v : Variant) (x : Option HashState) : Prop := ∃ h, x = some h ∧ stateVariant h = v

/-- Present, and `D` bytes long (R39). -/
def HoldsDigest (v : Variant) (x : Option (List Byte)) : Prop :=
  ∃ b, x = some b ∧ b.length = digestSize v

/-- What CHECK has established for the rest of a derivation with `L ≥ 1` (R86). -/
structure Checked (v : Variant) (s : State) : Prop where
  iterPositive : s.snap.iter ≠ 0
  outputNonempty : s.snap.outLen ≠ 0
  rangesLegal : checkRanges v s.snap = none
  blocks : s.nblk.toNat = blockCount v s.snap.outLen.toNat

/-- What holds of a derivation of variant `v` at each micro-operation (R37 to R39, R42, R85). -/
structure DerivationInv (v : Variant) (s : State) : Prop where
  checked : s.phase ∈ [phaseKeyload, phasePrecomp, phaseU1, phaseUiter, phaseXoracc, phaseWriteout] →
    Checked v s
  key : ∀ k, s.k0 = some k → k.length = blockSize v
  keyStates : s.phase ∈ [phaseU1, phaseUiter, phaseXoracc, phaseWriteout] →
    HoldsState v s.ipadState ∧ HoldsState v s.opadState
  blockIndex : s.phase ∈ [phaseU1, phaseUiter, phaseXoracc, phaseWriteout] →
    1 ≤ s.i.toNat ∧ s.i.toNat ≤ s.nblk.toNat
  values : s.phase ∈ [phaseUiter, phaseXoracc, phaseWriteout] →
    HoldsDigest v s.u ∧ HoldsDigest v s.t
  iterating : s.phase = phaseUiter → 1 ≤ s.j.toNat ∧ s.j.toNat < s.snap.iter.toNat
  accumulating : s.phase = phaseXoracc → 2 ≤ s.j.toNat ∧ s.j.toNat ≤ s.snap.iter.toNat
  complete : s.phase = phaseWriteout → s.j = s.snap.iter

/-- The invariant of the machine. -/
structure Inv (s : State) : Prop where
  /-- the memory is in its canonical form -/
  memory : Memory.wf s.mem = true
  /-- the codes 0x9 to 0xF are never held (R65) -/
  phaseLegal : s.phase.toNat ≤ 8
  /-- ERR = 0 implies ERRCODE = 0 (R26) -/
  errcodeClear : s.err = false → s.errcode = .none
  /-- DERIVATION_FAILED is never raised (R110), BLOCK_OVERFLOW cannot occur (R86) -/
  errcodeRaised : s.errcode ≠ .derivationFailed ∧ s.errcode ≠ .blockOverflow
  /-- DONE and ERR are 0 while BUSY = 1 (R26) -/
  busyClear : s.busy = true → s.done = false ∧ s.err = false
  /-- a running derivation has a variant (R103) -/
  busyVariant : s.busy = true → s.var ≠ none
  /-- only a micro-operation with a memory access can wait for an answer (R50) -/
  waitingPhase : s.waiting = true → s.phase ∈ [phaseKeyload, phaseU1, phaseWriteout]
  /-- outside a derivation no key material is held (R37 to R39) -/
  idleAbsent : s.busy = false → s.secretsAbsent
  /-- CHECK and KEYLOAD run before any key material exists (R37 to R39) -/
  earlyAbsent : s.phase ∈ [phaseCheck, phaseKeyload] → s.secretsAbsent
  /-- `st.K0` is held exactly between KEYLOAD and PRECOMP (R37) -/
  keyHeld : s.k0 ≠ none ↔ s.phase = phasePrecomp
  /-- BLK_IDX and ITER_CNT are 0 until PRECOMP and U1 set them (R30, R31) -/
  earlyZero : s.phase ∈ [phaseCheck, phaseKeyload, phasePrecomp] → s.i = 0 ∧ s.j = 0
  /-- the progress counters never pass their bounds (R42, R44) -/
  counters : s.i.toNat ≤ s.nblk.toNat ∧ s.j.toNat ≤ s.snap.iter.toNat
  derivation : ∀ v, s.var = some v → DerivationInv v s

/-! ## The function the engine computes, without the machine -/

/-- `HMAC(K, M) = H(opad_block || H(ipad_block || M))` for a zero-padded key (R83). -/
def hmacOf (c : HashCores) (v : Variant) (k0 m : List Byte) : List Byte :=
  hDigest c v (padBlock v k0 0x5c#8 ++ hDigest c v (padBlock v k0 0x36#8 ++ m))

/-- `U(j + 1)` of block `i` (R87, R88). -/
def uValue (c : HashCores) (v : Variant) (k0 salt : List Byte) (i : Word) : Nat → List Byte
  | 0 => hmacOf c v k0 (salt ++ be32 i)
  | j + 1 => hmacOf c v k0 (uValue c v k0 salt i j)

/-- `U(1) XOR ... XOR U(j + 1)` of block `i` (R89). -/
def tValue (c : HashCores) (v : Variant) (k0 salt : List Byte) (i : Word) : Nat → List Byte
  | 0 => uValue c v k0 salt i 0
  | j + 1 => xorBytes (tValue c v k0 salt i j) (uValue c v k0 salt i (j + 1))

/-- PBKDF2 with HMAC: the blocks `1, 2, …, ceil(L / D)` of `iters` iterations, cut to `L` bytes
(R2, R84, R90). -/
def pbkdf2 (c : HashCores) (v : Variant) (p salt : List Byte) (iters outLen : Nat) : List Byte :=
  ((List.range (blockCount v outLen)).flatMap fun b =>
    tValue c v (paddedKey c v p) salt (BitVec.ofNat 32 (b + 1)) (iters - 1)).take outLen

end Sys2Proof.Machine
end

