-- ==== Sys2Proof/Certificates/Slice0/Obligations.lean ====
section
/-! DEFINITION. The statements for the provers. Each docstring names the rules of spec/ it formalises;
where a clause is the model's own choice it names the log entry. Every result is stated as the whole next
state, so its frame is part of it. -/

open Sys2Proof Sys2Proof.Machine

/-! ## Encoding -/

/-- R62, R63, R65, R66: words written out from the spec's tables. OP is bits 3:0 and RSV bits 31:4 of a
command word; a micro-operation is 4 bits. -/
def Obligations.DecodesTheWordsOfTheTables : Prop :=
  decodeCmd 0b00000000000000000000000000000000#32 = .ok .nop ∧
  decodeCmd 0b00000000000000000000000000000001#32 = .ok .deriveSha1 ∧
  decodeCmd 0b00000000000000000000000000000010#32 = .ok .deriveSha256 ∧
  decodeCmd 0b00000000000000000000000000000011#32 = .ok .deriveSha512 ∧
  decodeCmd 0x00000004#32 = .error (.illegalCommand 0x00000004#32) ∧
  decodeCmd 0x00000011#32 = .error (.illegalCommand 0x00000011#32) ∧
  decodeCmd 0x80000001#32 = .error (.illegalCommand 0x80000001#32) ∧
  decodeUop 0b0000#4 = .ok .idle ∧ decodeUop 0b0001#4 = .ok .check ∧
  decodeUop 0b0010#4 = .ok .keyload ∧ decodeUop 0b0011#4 = .ok .precomp ∧
  decodeUop 0b0100#4 = .ok .u1 ∧ decodeUop 0b0101#4 = .ok .uiter ∧
  decodeUop 0b0110#4 = .ok .xoracc ∧ decodeUop 0b0111#4 = .ok .writeout ∧
  decodeUop 0b1000#4 = .ok .finish ∧
  decodeUop 0b1001#4 = .error (.phaseNeverHeld 0b1001#4)

/-- R63, R65, R66: every word and every code decodes to an instruction exactly when it is that
instruction's encoding; no bit is dropped and no second word has a meaning. -/
def Obligations.DecodesExactlyItsEncodings : Prop :=
  ∀ (c : Code) (i : Instr), decode c = .ok i ↔ c = encode i

/-- R63, R65: the field checks of well-formedness and the decoder agree on all 2^32 words and all 16
codes, and a rejection names the word or code. -/
def Obligations.RejectsExactlyTheIllFormed : Prop :=
  (∀ w, (Code.cmd w).wellFormed = false ↔ decodeCmd w = .error (.illegalCommand w)) ∧
  (∀ c, (Code.uop c).wellFormed = false ↔ decodeUop c = .error (.phaseNeverHeld c))

/-! ## The step -/

/-- R8, R85: the engine's turn, alone or in the schedule, runs the micro-operation that `st.phase`
names. U12: while a transaction is never answered the engine's turn changes nothing. U10: a code 0x9 to
0xF is a fault if it is ever held. -/
def Obligations.EngineTurnRunsTheDecodedMicroOperation : Prop :=
  ∀ (s u : State), (s.pending = [] ∧ u = s ∨ ∃ rest, s.pending = .engine :: rest ∧
      u = { s with pending := rest }) →
    (s.waiting = true → step s = .next u) ∧
    (∀ i, s.waiting = false → decodeUop s.phase = .ok i → step s = exec i u) ∧
    (s.waiting = false → 9 ≤ s.phase.toNat → step s = .fault (.phaseNeverHeld s.phase))

/-- R19, R27, R97: an aligned 4-byte write of a command word to CMD runs the command it decodes to, in
the same step; the access is answered OK (a write carries no rdata: log entry 9). -/
def Obligations.CommandWriteRunsTheDecodedCommand : Prop :=
  ∀ (s : State) (i : Instr) (w : Word) (rest : List Event),
    s.pending = .port ⟨s.platform.regBase + 0x0C, 4, true, w⟩ :: rest → decodeCmd w = .ok i →
    step s = exec i { s with pending := rest, reply := some ⟨none, .ok⟩ }

/-- The model's placing of an instruction (log entry 7): the very next step runs it. The write that
presents a command carries no rdata (log entry 9). -/
def Obligations.PlacedWordIsRunNext : Prop :=
  ∀ (s : State) (nbits w : Nat) (i : Instr), decodeTableWord nbits w = some i →
    step (s.withFetchWord nbits w) =
      exec i (match i.format with
        | .cmd => { s with reply := some ⟨none, .ok⟩ }
        | .uop => { s with phase := BitVec.ofNat 4 w, waiting := false })

/-! ## Commands -/

/-- R99: NOP has no effect, busy or not. -/
def Obligations.NopHasNoEffect : Prop :=
  ∀ s : State, exec .nop s = .next s

/-- R100 to R103: a DERIVE command of an idle engine is accepted. The last three fields are the model's
record of races and of the ranges the engine owns from here on (R126; log entries 5 and 22). -/
def Obligations.DeriveIsAcceptedWhenIdle : Prop :=
  ∀ (i : Instr) (v : Variant) (s : State),
    (i, v) ∈ [(Instr.deriveSha1, Variant.sha1), (.deriveSha256, .sha256), (.deriveSha512, .sha512)] →
    s.phase = phaseIdle →
    exec i s = .next { s with
      snap := s.regs
      var := some v
      nblk := 0
      i := 0
      j := 0
      errAddr := 0
      done := false
      err := false
      errcode := .none
      phase := phaseCheck
      disturbed := false
      unspecified := lift s.regs.outRange s.unspecified
      unseen := s.regs :: s.unseen }

/-- R97, R99, R105: while BUSY = 1 a NOP is ignored and any other word only sets OVR, whether it would
have been a DERIVE or an illegal word: at the decoder, and as the aligned write to CMD that presents
it. -/
def Obligations.CommandWhileBusyIsDropped : Prop :=
  ∀ (s : State) (w : Word), s.busy = true →
    presentCommand w s = .next (if w = 0 then s else { s with ovr := true }) ∧
    ∃ r, hostAccess ⟨s.platform.regBase + 0x0C, 4, true, w⟩ s = .next { s with
      ovr := if w = 0 then s.ovr else true, reply := some ⟨r, .ok⟩ }

/-- R104: a word other than 0x0 to 0x3 written while BUSY = 0 is rejected without starting anything: at
the decoder, and as the aligned write to CMD that presents it. That OVR stays as it was is the model's
choice (log entry 21). -/
def Obligations.IllegalCommandIsRejectedWhenIdle : Prop :=
  ∀ (s : State) (w : Word), s.busy = false → 3 < w.toNat →
    presentCommand w s =
      .next { s with var := none, done := true, err := true, errcode := .illegalCmd } ∧
    ∃ r, hostAccess ⟨s.platform.regBase + 0x0C, 4, true, w⟩ s = .next { s with
      var := none, done := true, err := true, errcode := .illegalCmd, reply := some ⟨r, .ok⟩ }

/-- R98, R85: IDLE's successor is IDLE and the engine does nothing in it (log entry 8: its turn is a
step that changes nothing). -/
def Obligations.IdleChangesNothing : Prop :=
  ∀ s : State, exec .idle s = .next s

/-- R68 and R103: the eight register writes of `DERIVE.<V>` from an idle engine leave the parameters in
the registers and in the snapshot, and CHECK next. A write carries no rdata (log entry 9). -/
def Obligations.DeriveScriptStartsTheDerivation : Prop :=
  ∀ (s : State) (v : Variant) (p : Params), s.busy = false →
    s.pending = deriveScript s.platform.regBase v p →
    Host.Core.run Sys2Proof.core 8 s = .next (accept v
      { s with regs := p, pending := [], reply := some ⟨none, .ok⟩ })

/-! ## CHECK -/

/-- R86: a snapshot that passes. `n` is the number of blocks, the least with `L ≤ n · D`. -/
def Obligations.CheckPassesLegalParameters : Prop :=
  ∀ (s : State) (v : Variant) (n : Nat), s.var = some v → s.snap.iter ≠ 0 →
    s.snap.outLen.toNat ≤ n * digestSize v → n * digestSize v < s.snap.outLen.toNat + digestSize v →
    (∀ r ∈ [s.snap.pwRange, s.snap.saltRange, s.snap.outRange], 1 ≤ r.len → r.start + r.len ≤ 2 ^ 32) →
    (∀ r ∈ [s.snap.pwRange, s.snap.saltRange], ∀ a,
      ¬(s.snap.outRange.contains a = true ∧ r.contains a = true)) →
    exec .check s = .next { s with
      nblk := BitVec.ofNat 32 n
      phase := if s.snap.outLen = 0 then phaseFinish else phaseKeyload }

/-- R86, R109: an iteration count of 0 is rejected first, whatever else the snapshot holds. -/
def Obligations.CheckRejectsZeroIterations : Prop :=
  ∀ s : State, s.snap.iter = 0 → exec .check s = .next (abort .invalidIterationCount s)

/-- R86, R111: after the iteration count, a non-empty range that passes the top of memory is
ADDR_RANGE, also when the output overlaps an input. -/
def Obligations.CheckRejectsWrappingRanges : Prop :=
  ∀ (s : State) (v : Variant), s.var = some v → s.snap.iter ≠ 0 →
    (∃ r ∈ [s.snap.pwRange, s.snap.saltRange, s.snap.outRange], 1 ≤ r.len ∧ 2 ^ 32 < r.start + r.len) →
    exec .check s = .next (abort .addrRange s)

/-- R86, R57, R111: last, an output that shares a byte with the password or the salt is OVERLAP. -/
def Obligations.CheckRejectsOverlap : Prop :=
  ∀ (s : State) (v : Variant), s.var = some v → s.snap.iter ≠ 0 →
    (∀ r ∈ [s.snap.pwRange, s.snap.saltRange, s.snap.outRange], 1 ≤ r.len → r.start + r.len ≤ 2 ^ 32) →
    (∃ r ∈ [s.snap.pwRange, s.snap.saltRange], ∃ a,
      s.snap.outRange.contains a = true ∧ r.contains a = true) →
    exec .check s = .next (abort .overlap s)

/-- R86: BLOCK_OVERFLOW cannot occur with 32-bit lengths. -/
def Obligations.BlockOverflowCannotOccur : Prop :=
  ∀ s t : State, exec .check s = .next t → s.errcode ≠ .blockOverflow → t.errcode ≠ .blockOverflow

/-! ## KEYLOAD and PRECOMP -/

/-- R79: KEYLOAD with an empty password makes no access; otherwise, when the memory answers OK, it
takes the bytes of the range, hashes them if longer than a block and pads with zeros. U12: when the
memory never answers, KEYLOAD is left waiting and nothing else changes (log entry 10). -/
def Obligations.KeyloadFormsTheKey : Prop :=
  ∀ (s : State) (v : Variant), s.var = some v →
    (s.snap.pwLen = 0 →
      exec .keyload s = .next { s with
        k0 := some (List.replicate (blockSize v) 0#8), phase := phasePrecomp }) ∧
    (s.snap.pwLen ≠ 0 → s.snap.pwAddr.toNat + s.snap.pwLen.toNat ≤ 2 ^ 32 →
      (s.bus.headD .ok = .ok →
        ∀ p, p = s.mem.readBytes s.snap.pwAddr.toNat s.snap.pwLen.toNat →
        exec .keyload s = .next { s with
          bus := s.bus.tail
          k0 := some (if blockSize v < s.snap.pwLen.toNat
            then hDigest (cores s) v p ++ List.replicate (blockSize v - digestSize v) 0#8
            else p ++ List.replicate (blockSize v - s.snap.pwLen.toNat) 0#8)
          phase := phasePrecomp }) ∧
      (∀ l, s.bus.headD .ok = .never l →
        exec .keyload s = .next { s with bus := s.bus.tail, waiting := true }))

/-- R80: PRECOMP. -/
def Obligations.PrecompBuildsTheKeyStates : Prop :=
  ∀ (s : State) (v : Variant) (k : List Byte), s.var = some v → s.k0 = some k →
    k.length = blockSize v →
    exec .precomp s = .next { s with
      ipadState := some (hAbsorb (cores s) (hInit (cores s) v) (k.map (· ^^^ 0x36#8)))
      opadState := some (hAbsorb (cores s) (hInit (cores s) v) (k.map (· ^^^ 0x5c#8)))
      k0 := none
      i := 1
      phase := phaseU1 }

/-- R81: from PRECOMP to the end of the derivation the key states are only read: a micro-operation of
the block loop leaves both as they are, unless it is the error end, which makes them absent. -/
def Obligations.BlockLoopOnlyReadsTheKeyStates : Prop :=
  ∀ (i : Instr) (s t : State), i ∈ [Instr.u1, .uiter, .xoracc, .writeout] → exec i s = .next t →
    (t.ipadState = s.ipadState ∧ t.opadState = s.opadState) ∨
    (t.ipadState = none ∧ t.opadState = none ∧ t.errcode = .busError ∧ t.phase = phaseIdle)

/-! ## The block loop -/

/-- R87: U1 with an empty salt makes no access; otherwise, when the memory answers OK, the message is
the salt's bytes and then BE32(i). U12: when the memory never answers, U1 is left waiting and nothing
else changes (log entry 10). -/
def Obligations.U1StartsTheBlock : Prop :=
  ∀ (s : State) (v : Variant) (ipad opad : HashState), s.var = some v →
    s.ipadState = some ipad → s.opadState = some opad →
    (s.snap.saltLen = 0 →
      ∀ u, u = hmacFrom (cores s) v ipad opad (be32 s.i) →
      exec .u1 s = .next { s with
        u := some u, t := some u, j := 1
        phase := if s.snap.iter = 1 then phaseWriteout else phaseUiter }) ∧
    (s.snap.saltLen ≠ 0 → s.snap.saltAddr.toNat + s.snap.saltLen.toNat ≤ 2 ^ 32 →
      (s.bus.headD .ok = .ok →
        ∀ u, u = hmacFrom (cores s) v ipad opad
          (s.mem.readBytes s.snap.saltAddr.toNat s.snap.saltLen.toNat ++ be32 s.i) →
        exec .u1 s = .next { s with
          bus := s.bus.tail
          u := some u, t := some u, j := 1
          phase := if s.snap.iter = 1 then phaseWriteout else phaseUiter }) ∧
      (∀ l, s.bus.headD .ok = .never l →
        exec .u1 s = .next { s with bus := s.bus.tail, waiting := true }))

/-- R88: UITER. -/
def Obligations.UiterComputesTheNextValue : Prop :=
  ∀ (s : State) (v : Variant) (ipad opad : HashState) (u : List Byte), s.var = some v →
    s.ipadState = some ipad → s.opadState = some opad → s.u = some u →
    exec .uiter s = .next { s with
      u := some (hmacFrom (cores s) v ipad opad u), j := s.j + 1, phase := phaseXoracc }

/-- R89, R94: XORACC, lane by lane; `st.U` is left as it is. -/
def Obligations.XoraccAccumulates : Prop :=
  ∀ (s : State) (t u : List Byte), s.t = some t → s.u = some u → t.length = u.length →
    ∃ r : List Byte, r.length = t.length ∧
      (∀ k, k < t.length → r.getD k 0#8 = t.getD k 0#8 ^^^ u.getD k 0#8) ∧
      exec .xoracc s = .next { s with
        t := some r
        phase := if s.j.toNat = s.snap.iter.toNat then phaseWriteout else phaseUiter }

/-- R90: WRITEOUT of block `i`, when no race has touched the output and the memory answers OK: the
leading `k` bytes of `T` are stored at `out_addr + (i - 1) · D`, and the next block or FINISH follows. -/
def Obligations.WriteoutStoresTheBlock : Prop :=
  ∀ (s : State) (v : Variant) (t : List Byte) (off k : Nat), s.var = some v → s.t = some t →
    1 ≤ s.i.toNat → off = (s.i.toNat - 1) * digestSize v → off < s.snap.outLen.toNat →
    k = min (digestSize v) (s.snap.outLen.toNat - off) →
    s.snap.outAddr.toNat + off + k ≤ 2 ^ 32 → s.bus.headD .ok = .ok →
    s.disturbed = false →
    (∀ a, s.snap.outAddr.toNat + off ≤ a → a < s.snap.outAddr.toNat + off + k →
      recorded s.unspecified a = false) →
    exec .writeout s = .next { s with
      bus := s.bus.tail
      mem := s.mem.writeBytes (s.snap.outAddr.toNat + off) (t.take k)
      i := if s.i = s.nblk then s.i else s.i + 1
      phase := if s.i = s.nblk then phaseFinish else phaseU1 }

/-- R90, R52, R47: what WRITEOUT does to every byte of memory, however the memory answers. It completes
for every block of the output. In every next state each address outside the block's range reads as
before; without a race (log entry 5) byte `k` of the range, `k < min(D, L - off)`, reads byte `k` of `T`
after OK, and that or what it read before after a bus error or no answer. U12: an unanswered WRITEOUT is
left waiting and nothing but memory and the model's own record changes (log entry 10). -/
def Obligations.WriteoutFrame : Prop :=
  ∀ (s : State) (v : Variant) (x : List Byte), s.var = some v → s.t = some x →
    x.length = digestSize v → Memory.wf s.mem = true →
    (1 ≤ s.i.toNat → blockOffset v s.i < s.snap.outLen.toNat →
      (blockRange v s).start + (blockRange v s).len ≤ 2 ^ 32 → ∃ t, exec .writeout s = .next t) ∧
    ∀ t, exec .writeout s = .next t →
      (∀ a, (blockRange v s).contains a = false → t.mem.readByte a = s.mem.readByte a) ∧
      (raced (blockRange v s) s = false → ∀ k, k < (blockRange v s).len →
        t.mem.readByte ((blockRange v s).start + k) = x.getD k 0#8 ∨
        s.bus.headD .ok ≠ .ok ∧ t.mem.readByte ((blockRange v s).start + k) =
          s.mem.readByte ((blockRange v s).start + k)) ∧
      (∀ l, s.bus.headD .ok = .never l → t = { s with
        bus := s.bus.tail, waiting := true, mem := t.mem
        unspecified := if raced (blockRange v s) s then t.unspecified else s.unspecified
        draws := if raced (blockRange v s) s then t.draws else s.draws })

/-- R126, U3 and the model's free bytes (log entry 5): under a race WRITEOUT still completes and goes on
as otherwise. Byte `k` of the block is free if an agent disturbed an input or wrote that byte of the
output, else it is byte `k` of `T`; no byte outside the block changes. The block joins the record if an
input was disturbed; the record keeps what it had. -/
def Obligations.RacedWriteoutStillCompletes : Prop :=
  ∀ (s : State) (v : Variant) (x : List Byte), s.var = some v → s.t = some x →
    x.length = digestSize v → Memory.wf s.mem = true → 1 ≤ s.i.toNat →
    blockOffset v s.i < s.snap.outLen.toNat →
    (blockRange v s).start + (blockRange v s).len ≤ 2 ^ 32 → nextAnswer s = .ok →
    raced (blockRange v s) s = true →
    ∃ t, exec .writeout s = .next t ∧
      t.i = (if s.i = s.nblk then s.i else s.i + 1) ∧
      t.phase = (if s.i = s.nblk then phaseFinish else phaseU1) ∧
      (∀ a, (blockRange v s).contains a = false → t.mem.readByte a = s.mem.readByte a) ∧
      (∀ k, k < (blockRange v s).len → t.mem.readByte ((blockRange v s).start + k) =
        if s.disturbed = true ∨ recorded s.unspecified ((blockRange v s).start + k) = true then
          Config.freeByte s.draws k
        else x.getD k 0#8) ∧
      (∀ a, recorded t.unspecified a =
        (recorded s.unspecified a || s.disturbed && (blockRange v s).contains a)) ∧
      t = { s with
        bus := s.bus.tail, mem := t.mem, i := t.i, phase := t.phase
        unspecified := t.unspecified, draws := s.draws + 1 }

/-- R91: FINISH. -/
def Obligations.FinishEndsTheDerivation : Prop :=
  ∀ s : State, exec .finish s = .next { s with
    ipadState := none, opadState := none, u := none, t := none
    done := true, phase := phaseIdle }

/-- R85: the successor table. A micro-operation that goes on leaves one of its successors in
`st.phase`; otherwise it is the error end, or it waits for an answer that never comes (U12). -/
def Obligations.SuccessorsAreThoseOfTheTable : Prop :=
  ∀ (i : Instr) (s t : State), i.format = .uop → encode i = .uop s.phase → s.waiting = false →
    exec i s = .next t →
    (t.waiting = true ∧ t.phase = s.phase) ∨
    (t.phase = phaseIdle ∧ t.done = true ∧ t.err = true) ∨
    (t.waiting = false ∧ t.phase = match i with
      | .check => if s.snap.outLen = 0 then phaseFinish else phaseKeyload
      | .keyload => phasePrecomp
      | .precomp => phaseU1
      | .u1 => if s.snap.iter = 1 then phaseWriteout else phaseUiter
      | .uiter => phaseXoracc
      | .xoracc => if s.j = s.snap.iter then phaseWriteout else phaseUiter
      | .writeout => if s.i = s.nblk then phaseFinish else phaseU1
      | .finish => phaseIdle
      | .idle => phaseIdle
      | .nop => s.phase
      | .deriveSha1 => s.phase
      | .deriveSha256 => s.phase
      | .deriveSha512 => s.phase)

/-! ## Errors -/

/-- R113: the error end, field by field. The last field is the contract's record (U1, log entry 5). -/
def Obligations.ErrorEndEffect : Prop :=
  ∀ (c : AbortCause) (s : State), abort c s = { s with
    k0 := none, ipadState := none, opadState := none, u := none, t := none
    errAddr := match c with
      | .busError e => e
      | .invalidIterationCount => s.errAddr
      | .blockOverflow => s.errAddr
      | .addrRange => s.errAddr
      | .overlap => s.errAddr
    errcode := match c with
      | .invalidIterationCount => .invalidIterationCount
      | .blockOverflow => .blockOverflow
      | .addrRange => .addrRange
      | .overlap => .overlap
      | .busError _ => .busError
    err := true
    done := true
    phase := phaseIdle
    unspecified := if s.snap.outLen = 0 then s.unspecified else s.snap.outRange :: s.unspecified }

/-- R112, R46: a bus error on the password or the salt ends the derivation with the reported address,
which lies in the range read; nothing of memory changes. -/
def Obligations.ReadBusErrorEndsTheDerivation : Prop :=
  ∀ (i : Instr) (s : State) (addr len : Word) (k l : Nat) (v : Variant) (ipad opad : HashState),
    s.var = some v →
    (i = .keyload ∧ addr = s.snap.pwAddr ∧ len = s.snap.pwLen ∨
      i = .u1 ∧ s.ipadState = some ipad ∧ s.opadState = some opad ∧
        addr = s.snap.saltAddr ∧ len = s.snap.saltLen) →
    len ≠ 0 → addr.toNat + len.toNat ≤ 2 ^ 32 → s.bus.headD .ok = .busErr k l →
    ∃ e : Word, addr.toNat ≤ e.toNat ∧ e.toNat < addr.toNat + len.toNat ∧
      exec i s = .next (abort (.busError e) { s with bus := s.bus.tail })

/-- R112, R47, U5: a bus error on the output ends the derivation; the bytes outside the failed write are
as before, and the reported address lies in it. -/
def Obligations.WriteBusErrorEndsTheDerivation : Prop :=
  ∀ (s : State) (v : Variant) (x : List Byte) (k l : Nat), s.var = some v → s.t = some x →
    x.length = digestSize v → Memory.wf s.mem = true → 1 ≤ s.i.toNat →
    blockOffset v s.i < s.snap.outLen.toNat →
    (blockRange v s).start + (blockRange v s).len ≤ 2 ^ 32 → s.bus.headD .ok = .busErr k l →
    ∃ (t : State), exec .writeout s = .next t ∧
      (blockRange v s).contains t.errAddr.toNat = true ∧
      t.errcode = .busError ∧ t.err = true ∧ t.done = true ∧ t.phase = phaseIdle ∧
      t.secretsAbsent ∧ t.i = s.i ∧ t.j = s.j ∧ t.nblk = s.nblk ∧ t.snap = s.snap ∧ t.var = s.var ∧
      (∀ a, (blockRange v s).contains a = false → t.mem.readByte a = s.mem.readByte a)

/-- R37 to R39: a micro-operation that reads an absent element, the others it reads before being present,
is a fault of the model. R9: so is one that needs the parameters of a variant while VARIANT is 0
(log entry 13). -/
def Obligations.AbsentValuesFault : Prop :=
  ∀ s : State,
    (s.var = none → (s.snap.iter ≠ 0 → exec .check s = .fault .noVariant) ∧
      ∀ i ∈ [Instr.keyload, .precomp, .u1, .uiter, .writeout], exec i s = .fault .noVariant) ∧
    (s.var ≠ none →
      (s.k0 = none → exec .precomp s = .fault (.absentValue .k0)) ∧
      (s.ipadState = none → ∀ i ∈ [Instr.u1, .uiter],
        exec i s = .fault (.absentValue .ipadState)) ∧
      (s.ipadState ≠ none → s.opadState = none → ∀ i ∈ [Instr.u1, .uiter],
        exec i s = .fault (.absentValue .opadState)) ∧
      (s.ipadState ≠ none → s.opadState ≠ none → s.u = none →
        exec .uiter s = .fault (.absentValue .u)) ∧
      (s.t = none → exec .writeout s = .fault (.absentValue .t))) ∧
    (s.t = none → exec .xoracc s = .fault (.absentValue .t)) ∧
    (s.t ≠ none → s.u = none → exec .xoracc s = .fault (.absentValue .u))

/-- R114, U1, U2: after an error end, and after a reset that abandons a derivation, the contract fixes
no byte of the output range. -/
def Obligations.OutputIsUnspecifiedAfterAnErrorOrReset : Prop :=
  ∀ (s : State) (c : AbortCause) (a : Nat), s.snap.outRange.contains a = true →
    (abort c s).specified a = false ∧ (s.busy = true → (resetEngine s).specified a = false)

/-! ## Registers, status and interrupt -/

/-- R20: an access of another size or at an offset that is no multiple of 4 gets ERR, reads 0 and
changes nothing else; an aligned 4-byte access gets OK, whatever it does. -/
def Obligations.OnlyAlignedWordAccessesAreTaken : Prop :=
  ∀ (s : State) (off size : Nat) (write : Bool) (w : Word), off < 0x40 →
    ((size ≠ 4 ∨ off % 4 ≠ 0) →
      hostAccess ⟨s.platform.regBase + off, size, write, w⟩ s =
        .next { s with reply := some ⟨some 0, .err⟩ }) ∧
    (size = 4 → off % 4 = 0 →
      ∃ t, hostAccess ⟨s.platform.regBase + off, size, write, w⟩ s = .next t ∧
        ∃ r, t.reply = some ⟨r, .ok⟩)

/-- R19, R21, R22, R24: an aligned 4-byte read is answered OK with the register the map puts at the
offset, IE in bit 0 and 0 above it at CTRL, 0 at CMD and at the reserved offsets, and changes nothing
else of the machine. R126: a read of STATUS with DONE = 1 is how the host sees the end, which the model's
own record of owned ranges follows (log entry 22). -/
def Obligations.AlignedReadFollowsTheMap : Prop :=
  ∀ (s : State) (off : Nat) (v w : Word),
    (off, v) ∈ [(0x00, 0x50424B32#32), (0x04, if s.ie then 1#32 else 0#32),
      (0x08, statusWord s), (0x0C, 0#32), (0x10, s.regs.pwAddr),
      (0x14, s.regs.pwLen), (0x18, s.regs.saltAddr), (0x1C, s.regs.saltLen), (0x20, s.regs.iter),
      (0x24, s.regs.outAddr), (0x28, s.regs.outLen), (0x2C, s.i), (0x30, s.j), (0x34, s.errAddr), (0x38, 0#32), (0x3C, 0#32)] →
    hostAccess ⟨s.platform.regBase + off, 4, false, w⟩ s = .next { s with
      reply := some ⟨some v, .ok⟩
      unseen := if off = 0x08 ∧ s.done = true then [] else s.unseen }

/-- R28: an aligned 4-byte write of a parameter register, busy or not, updates that register and
nothing else; the snapshot in particular stays. That its OK carries no rdata is the model's choice (log
entry 9). -/
def Obligations.ParameterWriteUpdatesOnlyItsRegister : Prop :=
  ∀ (s : State) (off : Nat) (w : Word) (r : Params),
    (off, r) ∈ [(0x10, { s.regs with pwAddr := w }), (0x14, { s.regs with pwLen := w }),
      (0x18, { s.regs with saltAddr := w }), (0x1C, { s.regs with saltLen := w }),
      (0x20, { s.regs with iter := w }), (0x24, { s.regs with outAddr := w }),
      (0x28, { s.regs with outLen := w })] →
    hostAccess ⟨s.platform.regBase + off, 4, true, w⟩ s =
      .next { s with regs := r, reply := some ⟨none, .ok⟩ }

/-- R21, R23, R30 to R32: a write to a read-only register or a reserved offset is ignored and answered
OK. That the OK carries no rdata is the model's choice (log entry 9). -/
def Obligations.ReadOnlyWritesAreIgnored : Prop :=
  ∀ (s : State) (off : Nat) (w : Word), off ∈ [0x00, 0x2C, 0x30, 0x34, 0x38, 0x3C] →
    hostAccess ⟨s.platform.regBase + off, 4, true, w⟩ s = .next { s with reply := some ⟨none, .ok⟩ }

/-- R25, R35, R9, R108: the fields of STATUS. -/
def Obligations.StatusWordFields : Prop :=
  ∀ s : State,
    (statusWord s).getLsbD 0 = decide (s.phase ≠ 0#4) ∧
    (statusWord s).getLsbD 1 = s.done ∧
    (statusWord s).getLsbD 2 = s.err ∧
    (statusWord s).getLsbD 3 = s.ovr ∧
    (statusWord s).extractLsb' 4 4 = (match s.errcode with
      | .none => 0x0#4 | .illegalCmd => 0x1#4 | .invalidIterationCount => 0x2#4
      | .addrRange => 0x3#4 | .overlap => 0x4#4 | .blockOverflow => 0x5#4
      | .busError => 0x6#4 | .derivationFailed => 0x7#4) ∧
    (statusWord s).extractLsb' 8 4 = s.phase ∧
    (statusWord s).extractLsb' 12 2 = (match s.var with
      | none => 0#2 | some .sha1 => 1#2 | some .sha256 => 2#2 | some .sha512 => 3#2) ∧
    (statusWord s).extractLsb' 14 18 = 0#18

/-- R26: a write to STATUS clears DONE, ERR with ERRCODE, and OVR by its bits 1, 2 and 3, and nothing
else. That its OK carries no rdata is the model's choice (log entry 9). -/
def Obligations.StatusWriteClears : Prop :=
  ∀ (s : State) (w : Word),
    hostAccess ⟨s.platform.regBase + 0x08, 4, true, w⟩ s = .next { s with
      done := if w.getLsbD 1 then false else s.done
      err := if w.getLsbD 2 then false else s.err
      errcode := if w.getLsbD 2 then .none else s.errcode
      ovr := if w.getLsbD 3 then false else s.ovr
      reply := some ⟨none, .ok⟩ }

/-- R24, R123, R124: CTRL reads IE in bit 0 and 0 elsewhere. A write to it with bit 1 clear sets IE to
bit 0; with bit 1 set it is the soft reset, whatever bit 0 is: every element of the engine takes its
reset value, and a derivation that was running leaves free bytes in its output range, as far as that
exists (U2), and the engine owns no range any longer (R126). Both are answered OK. What stays, the reply
without rdata, the draw and the record of unspecified bytes and owned ranges are the model's (log entries
5, 6, 9 and 22). -/
def Obligations.CtrlWriteSetsIeOrResets : Prop :=
  ∀ (s : State) (w : Word),
    ctrlWord s = (if s.ie then 1#32 else 0#32) ∧
    hostAccess ⟨s.platform.regBase + 0x04, 4, true, w⟩ s =
      if w.getLsbD 1 then .next { s with
        ie := false, done := false, err := false, ovr := false, errcode := .none
        regs := ⟨0, 0, 0, 0, 0, 0, 0⟩, phase := 0#4, var := none, snap := ⟨0, 0, 0, 0, 0, 0, 0⟩
        nblk := 0, i := 0, j := 0, errAddr := 0
        k0 := none, ipadState := none, opadState := none, u := none, t := none
        waiting := false, disturbed := false
        mem := if s.phase = 0#4 then s.mem else s.mem.writeBytes s.snap.outAddr.toNat
          ((List.range (min (s.snap.outAddr.toNat + s.snap.outLen.toNat) (2 ^ 32) -
            s.snap.outAddr.toNat)).map (Config.freeByte s.draws))
        draws := if s.phase = 0#4 then s.draws else s.draws + 1
        unspecified := if s.phase = 0#4 ∨ s.snap.outLen = 0 then s.unspecified
          else s.snap.outRange :: s.unspecified
        unseen := []
        reply := some ⟨none, .ok⟩ }
      else .next { s with ie := w.getLsbD 0, reply := some ⟨none, .ok⟩ }

/-- R106: a host access that is neither a write to CMD nor a write that sets SRST leaves the sequencer,
its counters, the snapshot, the key material and memory alone. One outside the register window changes
nothing at all, the last reply included: the model's choice (log entry 11). `unseen` is the model's record
of owned ranges, which a read of STATUS can end (log entry 22). -/
def Obligations.HostAccessLeavesTheSequencerAlone : Prop :=
  ∀ (s : State) (a : Access),
    (a.addr < s.platform.regBase ∨ s.platform.regBase + 0x40 ≤ a.addr → hostAccess a s = .next s) ∧
    ∀ t, hostAccess a s = .next t →
      ¬(a.write = true ∧ a.addr = s.platform.regBase + 0x0C) →
      ¬(a.write = true ∧ a.addr = s.platform.regBase + 0x04 ∧ a.wdata.getLsbD 1 = true) →
      t = { s with
        ie := t.ie, regs := t.regs, reply := t.reply, unseen := t.unseen
        done := t.done, err := t.err, errcode := t.errcode, ovr := t.ovr }

/-- R120: no register access reveals the key material: two states that differ in it alone answer every
access alike. -/
def Obligations.KeyMaterialIsNotReadable : Prop :=
  ∀ (s t t' : State) (a : Access) (k u x : Option (List Byte)) (p q : Option HashState),
    hostAccess a s = .next t →
    hostAccess a { s with k0 := k, ipadState := p, opadState := q, u := u, t := x } = .next t' →
    t.reply = t'.reply ∧ statusWord t = statusWord t' ∧ irq t = irq t'

/-- R115: the interrupt is IE AND DONE; it is up after FINISH and after an error end when IE = 1, and
down after a reset. -/
def Obligations.InterruptFollowsDone : Prop :=
  ∀ (s : State) (c : AbortCause),
    (irq s = true ↔ s.ie = true ∧ s.done = true) ∧
    (∀ t, exec .finish s = .next t → irq t = s.ie) ∧
    irq (abort c s) = s.ie ∧ irq (resetEngine s) = false

/-! ## Reset -/

/-- R122 to R124: the reset input puts every element of the engine into its reset value. A derivation it
abandons leaves a free byte at every address of its output range (U2); every other byte of memory is as
before, and without a derivation memory is as it was. What stands outside the engine stays (log
entry 6). The engine owns no range any longer (R126; log entry 22). -/
def Obligations.HardwareResetValues : Prop :=
  ∀ (s : State) (rest : List Event), s.pending = .hardReset :: rest →
    ∃ t, step s = .next t ∧ t = resetEngine { s with pending := rest } ∧
      t.ie = false ∧ t.done = false ∧ t.err = false ∧ t.ovr = false ∧ t.errcode = .none ∧
      t.regs = ⟨0, 0, 0, 0, 0, 0, 0⟩ ∧ t.phase = 0#4 ∧ t.var = none ∧ t.snap = ⟨0, 0, 0, 0, 0, 0, 0⟩ ∧
      t.nblk = 0 ∧ t.i = 0 ∧ t.j = 0 ∧ t.errAddr = 0 ∧ t.secretsAbsent ∧ t.waiting = false ∧
      t.unseen = [] ∧ irq t = false ∧ statusWord t = 0 ∧ ctrlWord t = 0 ∧ readOffset 0x00#6 t = 0x50424B32#32 ∧
      t.bus = s.bus ∧ t.pending = rest ∧ t.reply = s.reply ∧ t.platform = s.platform ∧
      (s.busy = false → t.mem = s.mem) ∧
      (Memory.wf s.mem = true → ∀ a,
        (s.busy = false ∨ s.snap.outRange.contains a = false → t.mem.readByte a = s.mem.readByte a) ∧
        (s.busy = true → s.snap.outRange.contains a = true → a < 2 ^ 32 →
          t.mem.readByte a = Config.freeByte s.draws (a - s.snap.outAddr.toNat)))

/-- R124: the state after reset, with nothing in memory; resetting it again changes nothing. -/
def Obligations.ResetStateValues : Prop :=
  State.reset.ie = false ∧ statusWord State.reset = 0 ∧ ctrlWord State.reset = 0 ∧
  (∀ off ∈ [0x0C#6, 0x10#6, 0x14#6, 0x18#6, 0x1C#6, 0x20#6, 0x24#6, 0x28#6, 0x2C#6, 0x30#6, 0x34#6],
    readOffset off State.reset = 0) ∧
  readOffset 0x00#6 State.reset = 0x50424B32#32 ∧
  State.reset.snap = ⟨0, 0, 0, 0, 0, 0, 0⟩ ∧ State.reset.nblk = 0 ∧ State.reset.secretsAbsent ∧
  irq State.reset = false ∧ resetEngine State.reset = State.reset

/-! ## Frames over all instructions -/

/-- R50, R90: only WRITEOUT stores to memory. Every other instruction leaves every byte as it was. -/
def Obligations.OnlyWriteoutStores : Prop :=
  ∀ (i : Instr) (s t : State), i ≠ .writeout → exec i s = .next t →
    ∀ a, t.mem.readByte a = s.mem.readByte a

/-- R28, R24, R33: no instruction writes the parameter registers or IE; the snapshot changes only when a
DERIVE is accepted, to the registers' values. -/
def Obligations.InstructionsLeaveTheHostsRegisters : Prop :=
  ∀ (i : Instr) (s t : State), exec i s = .next t →
    t.regs = s.regs ∧ t.ie = s.ie ∧ t.platform = s.platform ∧ t.pending = s.pending ∧
    t.reply = s.reply ∧
    (t.snap = s.snap ∨
      (i ∈ [Instr.deriveSha1, .deriveSha256, .deriveSha512] ∧ s.busy = false ∧ t.snap = s.regs))

/-- R105, R111: OVR is set by a dropped DERIVE and by no other instruction, and no instruction clears
it. -/
def Obligations.OverrunIsSetOnlyByADrop : Prop :=
  ∀ (i : Instr) (s t : State), exec i s = .next t →
    t.ovr = (s.ovr ||
      (s.busy && decide (i ∈ [Instr.deriveSha1, .deriveSha256, .deriveSha512])))

/-! ## The hash port, padding and HMAC -/

/-- R15: BE32 is four bytes and BEn is `w` bytes, the most significant first. -/
def Obligations.EncodingsAreBigEndian : Prop :=
  (∀ i : Word, (be32 i).length = 4 ∧
    ((be32 i).getD 0 0#8).toNat * 2 ^ 24 + ((be32 i).getD 1 0#8).toNat * 2 ^ 16 +
      ((be32 i).getD 2 0#8).toNat * 2 ^ 8 + ((be32 i).getD 3 0#8).toNat = i.toNat) ∧
  (∀ v w : Nat, v < 2 ^ (8 * w) → (bigEndian v w).length = w ∧
    (bigEndian v w).foldl (fun n b => 256 * n + b.toNat) 0 = v)

/-- R74: the padded tail is the tail, 0x80, the least number of zero bytes that fills the last block,
and the bit length in `LW` bytes, most significant first; its length is `B` or `2 · B`. -/
def Obligations.PaddingFillsOneOrTwoBlocks : Prop :=
  ∀ (v : Variant) (tail : List Byte) (total : Nat), tail.length ≤ blockSize v - 1 →
    ((pad v tail total).length = blockSize v ∨ (pad v tail total).length = 2 * blockSize v) ∧
    ∃ z, pad v tail total =
        tail ++ [0x80#8] ++ List.replicate z 0x00#8 ++ bigEndian (8 * total) (lengthWidth v) ∧
      (tail.length + 1 + z + lengthWidth v) % blockSize v = 0 ∧
      (∀ z', (tail.length + 1 + z' + lengthWidth v) % blockSize v = 0 → z ≤ z') ∧
      ∀ k, k < lengthWidth v → ((bigEndian (8 * total) (lengthWidth v)).getD k 0#8).toNat =
        (8 * total) / 2 ^ (8 * (lengthWidth v - 1 - k)) % 256

/-- R78, R82: the HMAC of a `D`-byte message is two absorptions and two emissions: one block each for
the inner and the outer hash. -/
def Obligations.DigestHmacAbsorbsTwoBlocks : Prop :=
  ∀ (c : HashCores) (v : Variant) (ipad opad : HashState) (m : List Byte),
    m.length = digestSize v → stateVariant ipad = v →
    hmacFrom c v ipad opad m =
      hEmit c (hAbsorb c opad (pad v
        (hEmit c (hAbsorb c ipad (pad v m (blockSize v + digestSize v))))
        (blockSize v + digestSize v)))

/-- R82, R83, R72: resuming from the two snapshots PRECOMP makes gives
`H(opad_block || H(ipad_block || M))`, for every primitive, every key and every message. -/
def Obligations.SnapshotHmacIsHmac : Prop :=
  ∀ (c : HashCores) (v : Variant) (k m : List Byte), k.length = blockSize v →
    hmacFrom c v (hAbsorb c (hInit c v) (padBlock v k 0x36#8))
        (hAbsorb c (hInit c v) (padBlock v k 0x5c#8)) m =
      hDigest c v (padBlock v k 0x5c#8 ++ hDigest c v (padBlock v k 0x36#8 ++ m))

/-- R96: prefix stability of the function the engine computes. -/
def Obligations.ShorterOutputIsAPrefix : Prop :=
  ∀ (c : HashCores) (v : Variant) (p salt : List Byte) (iters short long : Nat), short ≤ long →
    pbkdf2 c v p salt iters short = (pbkdf2 c v p salt iters long).take short ∧
    (pbkdf2 c v p salt iters long).length = long

/-! ## The whole machine -/

/-- R124 with R26, R30, R31, R35, R37 to R39, R42: the invariant holds right after reset. -/
def Obligations.ResetMeetsTheInvariant : Prop := Inv State.reset

/-- R26, R30, R31, R35, R37 to R39, R42, R65, R85, R93, R110: every step keeps the invariant, whatever
event it takes. -/
def Obligations.EveryStepKeepsTheInvariant : Prop :=
  ∀ s t : State, Inv s → step s = .next t → Inv t

/-- R37, R46, R65, R85: from the invariant no step faults, except for another agent's store that leaves
the memory space: no rule reads an absent value, makes an access outside memory, or holds a code above
0x8. -/
def Obligations.NoStepFaultsUnderTheInvariant : Prop :=
  ∀ s : State, Inv s →
    (∀ a x rest, s.pending = .store a x :: rest → a + x.length ≤ 2 ^ 32) →
    ∃ t, step s = .next t

/-- R92, D19: a derivation with `L = 0` is CHECK then FINISH, with no access to memory. -/
def Obligations.EmptyOutputTakesTwoSteps : Prop :=
  ∀ (s : State) (v : Variant), s.phase = phaseCheck → s.var = some v → s.waiting = false →
    s.pending = [] → s.snap.iter ≠ 0 → s.snap.outLen = 0 → s.snap.pwRange.wraps = false →
    s.snap.saltRange.wraps = false →
    Host.Core.run Sys2Proof.core 2 s = .next { s with
      nblk := 0, ipadState := none, opadState := none, u := none, t := none
      done := true, phase := phaseIdle }

/-- R2, R50, R52, R79 to R91, R85: a derivation that passes CHECK, left alone by the host and answered
by the memory, ends after exactly `4 + 2 · c · nblk` micro-operations (one before, FINISH is still to
come) with DONE, with PBKDF2 of the password and salt bytes in the output range, no byte of memory changed
outside it and none of the range recorded as unspecified; R129, R126: once the host has read STATUS, which
shows DONE = 1, every output byte is specified. The clauses on the record, and the premise on it, are about
the model's own record (log entries 5 and 22): the output is specified as a function of the bytes memory
holds, and the record does not follow an unspecified password or salt byte into it, which is the model's
choice (log entry 15). -/
def Obligations.DerivationComputesPbkdf2 : Prop :=
  ∀ (s : State) (v : Variant) (n : Nat), s.phase = phaseCheck → s.var = some v → s.waiting = false →
    s.pending = [] → s.bus = [] → s.disturbed = false → Memory.wf s.mem = true →
    (∀ a, s.snap.outRange.contains a = true → recorded s.unspecified a = false) →
    s.snap.iter ≠ 0 → s.snap.outLen ≠ 0 → checkRanges v s.snap = none →
    n = blockCount v s.snap.outLen.toNat →
    (∃ u, Host.Core.run Sys2Proof.core (3 + 2 * s.snap.iter.toNat * n) s = .next u ∧
      u.phase = phaseFinish) ∧
    ∃ t, Host.Core.run Sys2Proof.core (4 + 2 * s.snap.iter.toNat * n) s = .next t ∧
      t.phase = phaseIdle ∧ t.done = true ∧ t.err = s.err ∧ t.var = some v ∧
      t.i.toNat = n ∧ t.j = s.snap.iter ∧
      t.mem.readBytes s.snap.outAddr.toNat s.snap.outLen.toNat =
        pbkdf2 (cores s) v (s.mem.readBytes s.snap.pwAddr.toNat s.snap.pwLen.toNat)
          (s.mem.readBytes s.snap.saltAddr.toNat s.snap.saltLen.toNat)
          s.snap.iter.toNat s.snap.outLen.toNat ∧
      (∀ a, s.snap.outRange.contains a = false → t.mem.readByte a = s.mem.readByte a) ∧
      (∀ a, s.snap.outRange.contains a = true → recorded t.unspecified a = false) ∧
      ∃ r, hostAccess ⟨t.platform.regBase + 0x08, 4, false, 0⟩ t = .next r ∧
        r.reply = some ⟨some (statusWord t), .ok⟩ ∧ r.mem = t.mem ∧
        ∀ a, s.snap.outRange.contains a = true → r.specified a = true

/-- R59, R126, U3: what another agent's store does, whatever the engine is doing. It completes inside
the memory space. Every address it does not name reads as before and stays recorded or not as it was. A
byte it stores is in memory and not recorded, but for a byte of an output range the engine owns, which is a
free byte and recorded: the running derivation's range, or the range of one accepted earlier whose
DONE = 1 the host has not seen. It marks the derivation as disturbed exactly when BUSY = 1 and it writes a
byte of the password or the salt. Nothing of the engine changes. So a store that keeps off the owned ranges
is harmless. The record is the model's own (log entries 5, 16 and 22). -/
def Obligations.AgentStoresOutsideTheRangesAreHarmless : Prop :=
  ∀ (s : State) (a : Nat) (x : List Byte), a + x.length ≤ 2 ^ 32 → Memory.wf s.mem = true →
    ∃ t, agentStore a x s = .next t ∧
      t = { s with
        mem := t.mem, disturbed := t.disturbed, unspecified := t.unspecified, draws := t.draws } ∧
      (∀ b, b < a ∨ a + x.length ≤ b → t.mem.readByte b = s.mem.readByte b ∧
        recorded t.unspecified b = recorded s.unspecified b) ∧
      (∀ k, k < x.length →
        (((s.busy = true ∧ s.snap.outRange.contains (a + k) = true) ∨
            ∃ p ∈ s.unseen, p.outRange.contains (a + k) = true) →
          t.mem.readByte (a + k) = Config.freeByte s.draws k ∧
            recorded t.unspecified (a + k) = true) ∧
        ((s.busy = false ∨ s.snap.outRange.contains (a + k) = false) →
            (∀ p ∈ s.unseen, p.outRange.contains (a + k) = false) →
          t.mem.readByte (a + k) = x.getD k 0#8 ∧ recorded t.unspecified (a + k) = false)) ∧
      (t.disturbed = true ↔ s.disturbed = true ∨ s.busy = true ∧ ∃ k, k < x.length ∧
        (s.snap.pwRange.contains (a + k) = true ∨ s.snap.saltRange.contains (a + k) = true)) ∧
      ((Event.store a x).respects s = true → t.disturbed = s.disturbed ∧
        t.mem.readBytes a x.length = x)

/-- R8, R19, R59, R122: the next event of the schedule that is not the engine's turn is one access of
the host, one store of another agent, or the reset input, performed whole on the state with that event
taken. -/
def Obligations.StepTakesTheNextEvent : Prop :=
  ∀ (s : State) (rest : List Event),
    (∀ a, s.pending = .port a :: rest → step s = hostAccess a { s with pending := rest }) ∧
    (∀ a x, s.pending = .store a x :: rest → step s = agentStore a x { s with pending := rest }) ∧
    (s.pending = .hardReset :: rest → step s = .next (resetEngine { s with pending := rest }))
end

