-- ==== Sys2Proof/Laws/Hash.lean ====
section
/-! SUPPORT. The hash port's functions keep a state's variant and return digests of `D` bytes. -/

namespace Sys2Proof.Machine

@[simp] theorem stateVariant_hInit (c : HashCores) (v : Variant) : stateVariant (hInit c v) = v := by
  cases v <;> rfl

@[simp] theorem stateVariant_hAbsorb (c : HashCores) (S : HashState) (blk : List Byte) :
    stateVariant (hAbsorb c S blk) = stateVariant S := by cases S <;> rfl

@[simp] theorem stateVariant_absorbBlocks (c : HashCores) (b n : Nat) (S : HashState) (x : List Byte) :
    stateVariant (absorbBlocks c b n S x) = stateVariant S := by
  induction n generalizing S x with
  | zero => rfl
  | succ n ih => rw [absorbBlocks, ih, stateVariant_hAbsorb]

@[simp] theorem stateVariant_hAbsorbAll (c : HashCores) (v : Variant) (S : HashState) (x : List Byte) :
    stateVariant (hAbsorbAll c v S x).1 = stateVariant S := by simp [hAbsorbAll]

/-- A digest has `D` bytes (R69). -/
@[simp] theorem length_hEmit (c : HashCores) (S : HashState) :
    (hEmit c S).length = digestSize (stateVariant S) := by cases S <;> simp [hEmit, stateVariant, digestSize]

@[simp] theorem length_hFinalize (c : HashCores) (v : Variant) (S : HashState) (tail : List Byte) (n : Nat) :
    (hFinalize c v S tail n).length = digestSize (stateVariant S) := by simp [hFinalize]

@[simp] theorem length_hDigest (c : HashCores) (v : Variant) (x : List Byte) :
    (hDigest c v x).length = digestSize v := by simp [hDigest]

@[simp] theorem length_hmacFrom (c : HashCores) (v : Variant) (ipad opad : HashState) (m : List Byte) :
    (hmacFrom c v ipad opad m).length = digestSize (stateVariant opad) := by simp [hmacFrom]

/-- Every variant's digest fits in its block (R9). -/
theorem digestSize_le_blockSize (v : Variant) : digestSize v ≤ blockSize v := by cases v <;> decide

theorem digestSize_pos (v : Variant) : 0 < digestSize v := by cases v <;> decide

theorem blockSize_pos (v : Variant) : 0 < blockSize v := by cases v <;> decide

theorem length_hmacKey_le (c : HashCores) (v : Variant) (p : List Byte) :
    (hmacKey c v p).length ≤ blockSize v := by
  unfold hmacKey
  split
  · simpa using digestSize_le_blockSize v
  · omega

/-- `K0` has `B` bytes (R79). -/
@[simp] theorem length_paddedKey (c : HashCores) (v : Variant) (p : List Byte) :
    (paddedKey c v p).length = blockSize v := by
  have := length_hmacKey_le c v p
  simp [paddedKey]; omega

@[simp] theorem length_xorBytes (x y : List Byte) :
    (xorBytes x y).length = min x.length y.length := by simp [xorBytes]

@[simp] theorem length_bigEndian (v w : Nat) : (bigEndian v w).length = w := by simp [bigEndian]

theorem length_pad (v : Variant) (tail : List Byte) (n : Nat) :
    (pad v tail n).length = tail.length + 1 + padZeros v tail.length + lengthWidth v := by
  simp [pad]
  omega

/-- A digest-sized message needs one block of padding (R78). -/
theorem length_pad_digest (v : Variant) (m : List Byte) (n : Nat) (h : m.length = digestSize v) :
    (pad v m n).length = blockSize v := by
  rw [length_pad, h]
  cases v <;> decide

theorem digestSize_lt_blockSize (v : Variant) : digestSize v < blockSize v := by cases v <;> decide

/-- Less than a block is all tail (R73). -/
theorem hAbsorbAll_short (c : HashCores) (v : Variant) (S : HashState) (x : List Byte)
    (h : x.length < blockSize v) : hAbsorbAll c v S x = (S, x) := by
  simp [hAbsorbAll, Nat.div_eq_of_lt h, absorbBlocks]

/-- A leading full block is absorbed first (R72, R73). -/
theorem hAbsorbAll_block_append (c : HashCores) (v : Variant) (S : HashState) (b x : List Byte)
    (h : b.length = blockSize v) : hAbsorbAll c v S (b ++ x) = hAbsorbAll c v (hAbsorb c S b) x := by
  have n : (b ++ x).length / blockSize v = x.length / blockSize v + 1 := by
    rw [List.length_append, h, Nat.add_comm, Nat.add_div_right _ (blockSize_pos v)]
  have e : (x.length / blockSize v + 1) * blockSize v = b.length + x.length / blockSize v * blockSize v := by
    rw [h, Nat.succ_mul, Nat.add_comm]
  simp only [hAbsorbAll, n, absorbBlocks, e, List.drop_length_add_append, List.take_left' h,
    List.drop_left' h]

/-- One full block and no tail. -/
theorem hAbsorbAll_block (c : HashCores) (v : Variant) (S : HashState) (b : List Byte)
    (h : b.length = blockSize v) : hAbsorbAll c v S b = (hAbsorb c S b, []) := by
  have := hAbsorbAll_block_append c v S b [] h
  rwa [List.append_nil, hAbsorbAll_short _ _ _ [] (blockSize_pos v)] at this

end Sys2Proof.Machine
end

