-- ==== Sys2Proof/Laws/Memory.lean ====
section
/-! SUPPORT. The laws of the memory: every operation keeps the canonical form, and what a byte reads as
after a store. -/

namespace Sys2Proof.Machine

/-- The canonical form, taken apart at its first cell. -/
theorem Memory.wf_cons (c : Host.Cell) (m : Memory) :
    Memory.wf (c :: m) = true ↔
      (∀ d ∈ m, c.1 < d.1) ∧ (c.1 < Config.memorySpace ∧ c.2 ≠ 0#8) ∧ Memory.wf m = true := by
  simp only [Memory.wf, List.pairwise_cons, List.all_cons, Bool.and_eq_true, decide_eq_true_eq]
  tauto

@[simp] theorem Memory.wf_nil : Memory.wf [] = true := by decide

/-- Below every listed address the memory reads as 0x00. -/
theorem Memory.readByte_below (m : Memory) (a : Nat) (h : ∀ d ∈ m, a < d.1) :
    Memory.readByte m a = 0#8 := by
  cases m with
  | nil => rfl
  | cons c rest => simp [Memory.readByte, h c (by simp)]

/-- A store lists no address that was not listed, but for its own. -/
theorem Memory.mem_writeByte (m : Memory) (a : Nat) (x : Byte) (d : Host.Cell)
    (h : d ∈ Memory.writeByte m a x) : d ∈ m ∨ (d.1 = a ∧ d.2 = x ∧ x ≠ 0#8) := by
  induction m with
  | nil =>
    unfold Memory.writeByte at h
    split at h
    · simp at h
    · simp only [List.mem_singleton] at h
      subst h
      exact .inr ⟨rfl, rfl, ‹_›⟩
  | cons c rest ih =>
    unfold Memory.writeByte at h
    split at h
    · split at h
      · exact .inl h
      · rcases List.mem_cons.mp h with rfl | h
        · exact .inr ⟨rfl, rfl, ‹_›⟩
        · exact .inl h
    · split at h
      · split at h
        · exact .inl (List.mem_cons_of_mem _ h)
        · rcases List.mem_cons.mp h with rfl | h
          · exact .inr ⟨by simp_all, rfl, ‹_›⟩
          · exact .inl (List.mem_cons_of_mem _ h)
      · rcases List.mem_cons.mp h with rfl | h
        · exact .inl (by simp)
        · rcases ih h with h | h
          · exact .inl (List.mem_cons_of_mem _ h)
          · exact .inr h

/-- A store of one byte keeps the canonical form. -/
theorem Memory.wf_writeByte (m : Memory) (a : Nat) (x : Byte) (ha : a < Config.memorySpace)
    (h : Memory.wf m = true) : Memory.wf (Memory.writeByte m a x) = true := by
  induction m with
  | nil =>
    unfold Memory.writeByte
    split
    · rfl
    · exact (Memory.wf_cons _ _).mpr ⟨by simp, ⟨ha, ‹_›⟩, rfl⟩
  | cons c rest ih =>
    obtain ⟨b, y⟩ := c
    obtain ⟨hlt, hc, hrest⟩ := (Memory.wf_cons _ _).mp h
    unfold Memory.writeByte
    split
    · split
      · exact h
      · refine (Memory.wf_cons _ _).mpr ⟨?_, ⟨ha, ‹_›⟩, h⟩
        intro d hd
        rcases List.mem_cons.mp hd with rfl | hd
        · assumption
        · exact lt_trans ‹a < b› (hlt d hd)
    · split
      · split
        · exact hrest
        · exact (Memory.wf_cons _ _).mpr ⟨hlt, ⟨hc.1, ‹_›⟩, hrest⟩
      · refine (Memory.wf_cons _ _).mpr ⟨?_, hc, ih hrest⟩
        intro d hd
        rcases Memory.mem_writeByte rest a x d hd with hd | ⟨hd, -, -⟩
        · exact hlt d hd
        · simp only [hd]; omega

/-- A store of a byte string inside the memory space keeps the canonical form. -/
theorem Memory.wf_writeBytes (x : List Byte) (m : Memory) (a : Nat)
    (ha : a + x.length ≤ Config.memorySpace) (h : Memory.wf m = true) :
    Memory.wf (Memory.writeBytes m a x) = true := by
  induction x generalizing m a with
  | nil => exact h
  | cons b rest ih =>
    simp only [List.length_cons] at ha
    exact ih _ _ (by omega) (Memory.wf_writeByte m a b (by omega) h)

/-- An unsuccessful write keeps the canonical form, whichever bytes landed. -/
theorem Memory.wf_writeLanded (x : List Byte) (m : Memory) (a mask : Nat)
    (ha : a + x.length ≤ Config.memorySpace) (h : Memory.wf m = true) :
    Memory.wf (Memory.writeLanded m a x mask) = true := by
  induction x generalizing m a mask with
  | nil => exact h
  | cons b rest ih =>
    simp only [List.length_cons] at ha
    refine ih _ _ _ (by omega) ?_
    split
    · exact Memory.wf_writeByte m a b (by omega) h
    · exact h

/-- A read after a store of one byte. -/
theorem Memory.readByte_writeByte (m : Memory) (a b : Nat) (x : Byte) (h : Memory.wf m = true) :
    Memory.readByte (Memory.writeByte m a x) b = if b = a then x else Memory.readByte m b := by
  induction m with
  | nil =>
    unfold Memory.writeByte
    split <;> simp_all [Memory.readByte]
    intro h1 h2; omega
  | cons c rest ih =>
    obtain ⟨d, y⟩ := c
    obtain ⟨hlt, hc, hrest⟩ := (Memory.wf_cons _ _).mp h
    have hbelow : ∀ e, e ≤ d → Memory.readByte rest e = 0#8 := fun e he =>
      Memory.readByte_below rest e fun q hq => lt_of_le_of_lt he (hlt q hq)
    unfold Memory.writeByte
    rcases lt_trichotomy a d with had | had | had
    · rcases lt_trichotomy b a with hba | hba | hba
      · by_cases hx : x = 0#8
        · simp [had, hx, Memory.readByte, hba.ne, lt_trans hba had]
        · simp [had, hx, Memory.readByte, hba.ne, hba, lt_trans hba had]
      · subst hba
        by_cases hx : x = 0#8 <;> simp [had, hx, Memory.readByte]
      · by_cases hx : x = 0#8
        · simp [had, hx, Memory.readByte, hba.ne']
        · simp [had, hx, Memory.readByte, hba.ne', not_lt.mpr hba.le]
    · subst had
      rcases lt_trichotomy b a with hba | hba | hba
      · by_cases hx : x = 0#8
        · simp [hx, Memory.readByte, hba, hba.ne, hbelow b hba.le]
        · simp [hx, Memory.readByte, hba, hba.ne]
      · subst hba
        by_cases hx : x = 0#8
        · simp [hx, hbelow b le_rfl]
        · simp [hx, Memory.readByte]
      · by_cases hx : x = 0#8 <;> simp [hx, Memory.readByte, hba.ne', not_lt.mpr hba.le]
    · rw [if_neg (not_lt.mpr had.le), if_neg had.ne']
      unfold Memory.readByte
      rw [ih hrest]
      rcases lt_trichotomy b d with hbd | hbd | hbd
      · simp [hbd, (lt_trans hbd had).ne]
      · simp [hbd, had.ne]
      · simp [not_lt.mpr hbd.le, hbd.ne']

/-- A read after a store of a byte string: byte `k` of it at address `a + k`, every other address as
before (R47). -/
theorem Memory.readByte_writeBytes (x : List Byte) (m : Memory) (a b : Nat)
    (ha : a + x.length ≤ Config.memorySpace) (h : Memory.wf m = true) :
    Memory.readByte (Memory.writeBytes m a x) b =
      if a ≤ b ∧ b < a + x.length then x.getD (b - a) 0#8 else Memory.readByte m b := by
  induction x generalizing m a with
  | nil => simp [Memory.writeBytes]
  | cons y rest ih =>
    simp only [List.length_cons] at ha ⊢
    rw [Memory.writeBytes, ih _ _ (by omega) (Memory.wf_writeByte m a y (by omega) h),
      Memory.readByte_writeByte m a b y h]
    rcases lt_trichotomy b a with hba | hba | hba
    · rw [if_neg (by omega), if_neg (by omega), if_neg (by omega)]
    · subst hba
      rw [if_neg (by omega), if_pos rfl, if_pos (by omega)]
      simp
    · by_cases hin : b < a + (rest.length + 1)
      · rw [if_pos (by omega), if_pos (by omega)]
        obtain ⟨k, rfl⟩ : ∃ k, b = a + (k + 1) := ⟨b - a - 1, by omega⟩
        rw [show a + (k + 1) - (a + 1) = k by omega, show a + (k + 1) - a = k + 1 by omega]
        simp
      · rw [if_neg (by omega), if_neg (by omega), if_neg (by omega)]

/-- A read after an unsuccessful write: byte `k` of it at address `a + k` if bit `k` of the mask is set,
every other address as before (R47). -/
theorem Memory.readByte_writeLanded (x : List Byte) (m : Memory) (a b mask : Nat)
    (ha : a + x.length ≤ Config.memorySpace) (h : Memory.wf m = true) :
    Memory.readByte (Memory.writeLanded m a x mask) b =
      if a ≤ b ∧ b < a + x.length ∧ mask.testBit (b - a) = true then x.getD (b - a) 0#8
      else Memory.readByte m b := by
  induction x generalizing m a mask with
  | nil => simp [Memory.writeLanded]; omega
  | cons y rest ih =>
    simp only [List.length_cons] at ha ⊢
    have hwf := Memory.wf_writeByte m a y (by omega) h
    have e : Memory.writeLanded m a (y :: rest) mask =
        Memory.writeLanded (if mask % 2 = 1 then m.writeByte a y else m) (a + 1) rest (mask / 2) := rfl
    rw [e, ih _ _ _ (by omega) (by split <;> assumption)]
    have hr : Memory.readByte (if mask % 2 = 1 then m.writeByte a y else m) b =
        if mask % 2 = 1 ∧ b = a then y else Memory.readByte m b := by
      split <;> simp_all [Memory.readByte_writeByte]
    rw [hr]
    rcases lt_trichotomy b a with hba | rfl | hba
    · rw [if_neg (by omega), if_neg (by omega), if_neg (by omega)]
    · rw [if_neg (by omega)]
      simp [Nat.testBit_zero]
    · obtain ⟨k, rfl⟩ : ∃ k, b = a + (k + 1) := ⟨b - a - 1, by omega⟩
      rw [show a + (k + 1) - (a + 1) = k by omega, show a + (k + 1) - a = k + 1 by omega,
        if_neg (show ¬(mask % 2 = 1 ∧ a + (k + 1) = a) by omega), Nat.testBit_succ]
      simp only [List.getD_cons_succ]
      congr 1
      simp only [eq_iff_iff]
      constructor <;> rintro ⟨_, _, ht⟩ <;> exact ⟨by omega, by omega, ht⟩

/-- An unsuccessful write changes nothing outside its range (R47). -/
theorem Memory.readByte_writeLanded_outside (x : List Byte) (m : Memory) (a b mask : Nat)
    (ha : a + x.length ≤ Config.memorySpace) (h : Memory.wf m = true)
    (hb : b < a ∨ a + x.length ≤ b) :
    Memory.readByte (Memory.writeLanded m a x mask) b = Memory.readByte m b := by
  rw [Memory.readByte_writeLanded x m a b mask ha h, if_neg (by omega)]

@[simp] theorem Memory.length_readBytes (m : Memory) (a n : Nat) :
    (Memory.readBytes m a n).length = n := by simp [Memory.readBytes]

/-- Byte `k` of a read is the byte at address `a + k` (R46). -/
theorem Memory.getElem_readBytes (m : Memory) (a n k : Nat) (h : k < (Memory.readBytes m a n).length) :
    (Memory.readBytes m a n)[k] = Memory.readByte m (a + k) := by simp [Memory.readBytes]

/-- Reading back a byte string that was just stored. -/
theorem Memory.readBytes_writeBytes (x : List Byte) (m : Memory) (a : Nat)
    (ha : a + x.length ≤ Config.memorySpace) (h : Memory.wf m = true) :
    Memory.readBytes (Memory.writeBytes m a x) a x.length = x := by
  apply List.ext_getElem
  · simp
  · intro k h1 h2
    rw [Memory.getElem_readBytes, Memory.readByte_writeBytes x m a _ ha h, if_pos (by omega)]
    simp [h2]

/-- A read whose range a store does not touch. -/
theorem Memory.readBytes_writeBytes_disjoint (x : List Byte) (m : Memory) (a b n : Nat)
    (ha : a + x.length ≤ Config.memorySpace) (h : Memory.wf m = true)
    (hd : b + n ≤ a ∨ a + x.length ≤ b) :
    Memory.readBytes (Memory.writeBytes m a x) b n = Memory.readBytes m b n := by
  apply List.ext_getElem
  · simp
  · intro k h1 h2
    simp only [Memory.length_readBytes] at h1
    rw [Memory.getElem_readBytes, Memory.getElem_readBytes,
      Memory.readByte_writeBytes x m a _ ha h, if_neg (by omega)]

end Sys2Proof.Machine
end

