-- ==== Sys2Proof/Laws/State.lean ====
section
/-! SUPPORT. What each named update of the state leaves in each field, one lemma a field, so that no
proof unfolds a record update. -/

namespace Sys2Proof.Machine

variable (s : State)

/-! ## clearSecrets -/

section
@[simp] theorem clearSecrets_ie : (clearSecrets s).ie = s.ie := rfl
@[simp] theorem clearSecrets_done : (clearSecrets s).done = s.done := rfl
@[simp] theorem clearSecrets_err : (clearSecrets s).err = s.err := rfl
@[simp] theorem clearSecrets_ovr : (clearSecrets s).ovr = s.ovr := rfl
@[simp] theorem clearSecrets_errcode : (clearSecrets s).errcode = s.errcode := rfl
@[simp] theorem clearSecrets_regs : (clearSecrets s).regs = s.regs := rfl
@[simp] theorem clearSecrets_phase : (clearSecrets s).phase = s.phase := rfl
@[simp] theorem clearSecrets_var : (clearSecrets s).var = s.var := rfl
@[simp] theorem clearSecrets_snap : (clearSecrets s).snap = s.snap := rfl
@[simp] theorem clearSecrets_nblk : (clearSecrets s).nblk = s.nblk := rfl
@[simp] theorem clearSecrets_i : (clearSecrets s).i = s.i := rfl
@[simp] theorem clearSecrets_j : (clearSecrets s).j = s.j := rfl
@[simp] theorem clearSecrets_errAddr : (clearSecrets s).errAddr = s.errAddr := rfl
@[simp] theorem clearSecrets_k0 : (clearSecrets s).k0 = none := rfl
@[simp] theorem clearSecrets_ipadState : (clearSecrets s).ipadState = none := rfl
@[simp] theorem clearSecrets_opadState : (clearSecrets s).opadState = none := rfl
@[simp] theorem clearSecrets_u : (clearSecrets s).u = none := rfl
@[simp] theorem clearSecrets_t : (clearSecrets s).t = none := rfl
@[simp] theorem clearSecrets_waiting : (clearSecrets s).waiting = s.waiting := rfl
@[simp] theorem clearSecrets_mem : (clearSecrets s).mem = s.mem := rfl
@[simp] theorem clearSecrets_bus : (clearSecrets s).bus = s.bus := rfl
@[simp] theorem clearSecrets_pending : (clearSecrets s).pending = s.pending := rfl
@[simp] theorem clearSecrets_reply : (clearSecrets s).reply = s.reply := rfl
@[simp] theorem clearSecrets_platform : (clearSecrets s).platform = s.platform := rfl
@[simp] theorem clearSecrets_disturbed : (clearSecrets s).disturbed = s.disturbed := rfl
@[simp] theorem clearSecrets_unspecified : (clearSecrets s).unspecified = s.unspecified := rfl
@[simp] theorem clearSecrets_draws : (clearSecrets s).draws = s.draws := rfl
@[simp] theorem clearSecrets_unseen : (clearSecrets s).unseen = s.unseen := rfl
@[simp] theorem clearSecrets_busy : (clearSecrets s).busy = s.busy := rfl
end

/-! ## popAnswer -/

section
@[simp] theorem popAnswer_ie : (popAnswer s).ie = s.ie := rfl
@[simp] theorem popAnswer_done : (popAnswer s).done = s.done := rfl
@[simp] theorem popAnswer_err : (popAnswer s).err = s.err := rfl
@[simp] theorem popAnswer_ovr : (popAnswer s).ovr = s.ovr := rfl
@[simp] theorem popAnswer_errcode : (popAnswer s).errcode = s.errcode := rfl
@[simp] theorem popAnswer_regs : (popAnswer s).regs = s.regs := rfl
@[simp] theorem popAnswer_phase : (popAnswer s).phase = s.phase := rfl
@[simp] theorem popAnswer_var : (popAnswer s).var = s.var := rfl
@[simp] theorem popAnswer_snap : (popAnswer s).snap = s.snap := rfl
@[simp] theorem popAnswer_nblk : (popAnswer s).nblk = s.nblk := rfl
@[simp] theorem popAnswer_i : (popAnswer s).i = s.i := rfl
@[simp] theorem popAnswer_j : (popAnswer s).j = s.j := rfl
@[simp] theorem popAnswer_errAddr : (popAnswer s).errAddr = s.errAddr := rfl
@[simp] theorem popAnswer_k0 : (popAnswer s).k0 = s.k0 := rfl
@[simp] theorem popAnswer_ipadState : (popAnswer s).ipadState = s.ipadState := rfl
@[simp] theorem popAnswer_opadState : (popAnswer s).opadState = s.opadState := rfl
@[simp] theorem popAnswer_u : (popAnswer s).u = s.u := rfl
@[simp] theorem popAnswer_t : (popAnswer s).t = s.t := rfl
@[simp] theorem popAnswer_waiting : (popAnswer s).waiting = s.waiting := rfl
@[simp] theorem popAnswer_mem : (popAnswer s).mem = s.mem := rfl
@[simp] theorem popAnswer_bus : (popAnswer s).bus = s.bus.tail := rfl
@[simp] theorem popAnswer_pending : (popAnswer s).pending = s.pending := rfl
@[simp] theorem popAnswer_reply : (popAnswer s).reply = s.reply := rfl
@[simp] theorem popAnswer_platform : (popAnswer s).platform = s.platform := rfl
@[simp] theorem popAnswer_disturbed : (popAnswer s).disturbed = s.disturbed := rfl
@[simp] theorem popAnswer_unspecified : (popAnswer s).unspecified = s.unspecified := rfl
@[simp] theorem popAnswer_draws : (popAnswer s).draws = s.draws := rfl
@[simp] theorem popAnswer_unseen : (popAnswer s).unseen = s.unseen := rfl
@[simp] theorem popAnswer_busy : (popAnswer s).busy = s.busy := rfl
end

/-! ## abort -/

section
variable (c : AbortCause)
@[simp] theorem abort_ie : (abort c s).ie = s.ie := rfl
@[simp] theorem abort_done : (abort c s).done = true := rfl
@[simp] theorem abort_err : (abort c s).err = true := rfl
@[simp] theorem abort_ovr : (abort c s).ovr = s.ovr := rfl
@[simp] theorem abort_errcode : (abort c s).errcode = abortCode c := rfl
@[simp] theorem abort_regs : (abort c s).regs = s.regs := rfl
@[simp] theorem abort_phase : (abort c s).phase = phaseIdle := rfl
@[simp] theorem abort_var : (abort c s).var = s.var := rfl
@[simp] theorem abort_snap : (abort c s).snap = s.snap := rfl
@[simp] theorem abort_nblk : (abort c s).nblk = s.nblk := rfl
@[simp] theorem abort_i : (abort c s).i = s.i := rfl
@[simp] theorem abort_j : (abort c s).j = s.j := rfl
@[simp] theorem abort_errAddr : (abort c s).errAddr = abortAddr c s.errAddr := rfl
@[simp] theorem abort_k0 : (abort c s).k0 = none := rfl
@[simp] theorem abort_ipadState : (abort c s).ipadState = none := rfl
@[simp] theorem abort_opadState : (abort c s).opadState = none := rfl
@[simp] theorem abort_u : (abort c s).u = none := rfl
@[simp] theorem abort_t : (abort c s).t = none := rfl
@[simp] theorem abort_waiting : (abort c s).waiting = s.waiting := rfl
@[simp] theorem abort_mem : (abort c s).mem = s.mem := rfl
@[simp] theorem abort_bus : (abort c s).bus = s.bus := rfl
@[simp] theorem abort_pending : (abort c s).pending = s.pending := rfl
@[simp] theorem abort_reply : (abort c s).reply = s.reply := rfl
@[simp] theorem abort_platform : (abort c s).platform = s.platform := rfl
@[simp] theorem abort_disturbed : (abort c s).disturbed = s.disturbed := rfl
@[simp] theorem abort_unspecified : (abort c s).unspecified = taint s.snap.outRange s.unspecified := rfl
@[simp] theorem abort_draws : (abort c s).draws = s.draws := rfl
@[simp] theorem abort_unseen : (abort c s).unseen = s.unseen := rfl
@[simp] theorem abort_busy : (abort c s).busy = false := rfl
end

/-! ## accept -/

section
variable (v : Variant)
@[simp] theorem accept_ie : (accept v s).ie = s.ie := rfl
@[simp] theorem accept_done : (accept v s).done = false := rfl
@[simp] theorem accept_err : (accept v s).err = false := rfl
@[simp] theorem accept_ovr : (accept v s).ovr = s.ovr := rfl
@[simp] theorem accept_errcode : (accept v s).errcode = .none := rfl
@[simp] theorem accept_regs : (accept v s).regs = s.regs := rfl
@[simp] theorem accept_phase : (accept v s).phase = phaseCheck := rfl
@[simp] theorem accept_var : (accept v s).var = some v := rfl
@[simp] theorem accept_snap : (accept v s).snap = s.regs := rfl
@[simp] theorem accept_nblk : (accept v s).nblk = 0 := rfl
@[simp] theorem accept_i : (accept v s).i = 0 := rfl
@[simp] theorem accept_j : (accept v s).j = 0 := rfl
@[simp] theorem accept_errAddr : (accept v s).errAddr = 0 := rfl
@[simp] theorem accept_k0 : (accept v s).k0 = s.k0 := rfl
@[simp] theorem accept_ipadState : (accept v s).ipadState = s.ipadState := rfl
@[simp] theorem accept_opadState : (accept v s).opadState = s.opadState := rfl
@[simp] theorem accept_u : (accept v s).u = s.u := rfl
@[simp] theorem accept_t : (accept v s).t = s.t := rfl
@[simp] theorem accept_waiting : (accept v s).waiting = s.waiting := rfl
@[simp] theorem accept_mem : (accept v s).mem = s.mem := rfl
@[simp] theorem accept_bus : (accept v s).bus = s.bus := rfl
@[simp] theorem accept_pending : (accept v s).pending = s.pending := rfl
@[simp] theorem accept_reply : (accept v s).reply = s.reply := rfl
@[simp] theorem accept_platform : (accept v s).platform = s.platform := rfl
@[simp] theorem accept_disturbed : (accept v s).disturbed = false := rfl
@[simp] theorem accept_unspecified : (accept v s).unspecified = lift s.regs.outRange s.unspecified := rfl
@[simp] theorem accept_draws : (accept v s).draws = s.draws := rfl
@[simp] theorem accept_unseen : (accept v s).unseen = s.regs :: s.unseen := rfl
@[simp] theorem accept_busy : (accept v s).busy = true := rfl
end

/-! ## dropCommand -/

section
@[simp] theorem dropCommand_ie : (dropCommand s).ie = s.ie := rfl
@[simp] theorem dropCommand_done : (dropCommand s).done = s.done := rfl
@[simp] theorem dropCommand_err : (dropCommand s).err = s.err := rfl
@[simp] theorem dropCommand_ovr : (dropCommand s).ovr = true := rfl
@[simp] theorem dropCommand_errcode : (dropCommand s).errcode = s.errcode := rfl
@[simp] theorem dropCommand_regs : (dropCommand s).regs = s.regs := rfl
@[simp] theorem dropCommand_phase : (dropCommand s).phase = s.phase := rfl
@[simp] theorem dropCommand_var : (dropCommand s).var = s.var := rfl
@[simp] theorem dropCommand_snap : (dropCommand s).snap = s.snap := rfl
@[simp] theorem dropCommand_nblk : (dropCommand s).nblk = s.nblk := rfl
@[simp] theorem dropCommand_i : (dropCommand s).i = s.i := rfl
@[simp] theorem dropCommand_j : (dropCommand s).j = s.j := rfl
@[simp] theorem dropCommand_errAddr : (dropCommand s).errAddr = s.errAddr := rfl
@[simp] theorem dropCommand_k0 : (dropCommand s).k0 = s.k0 := rfl
@[simp] theorem dropCommand_ipadState : (dropCommand s).ipadState = s.ipadState := rfl
@[simp] theorem dropCommand_opadState : (dropCommand s).opadState = s.opadState := rfl
@[simp] theorem dropCommand_u : (dropCommand s).u = s.u := rfl
@[simp] theorem dropCommand_t : (dropCommand s).t = s.t := rfl
@[simp] theorem dropCommand_waiting : (dropCommand s).waiting = s.waiting := rfl
@[simp] theorem dropCommand_mem : (dropCommand s).mem = s.mem := rfl
@[simp] theorem dropCommand_bus : (dropCommand s).bus = s.bus := rfl
@[simp] theorem dropCommand_pending : (dropCommand s).pending = s.pending := rfl
@[simp] theorem dropCommand_reply : (dropCommand s).reply = s.reply := rfl
@[simp] theorem dropCommand_platform : (dropCommand s).platform = s.platform := rfl
@[simp] theorem dropCommand_disturbed : (dropCommand s).disturbed = s.disturbed := rfl
@[simp] theorem dropCommand_unspecified : (dropCommand s).unspecified = s.unspecified := rfl
@[simp] theorem dropCommand_draws : (dropCommand s).draws = s.draws := rfl
@[simp] theorem dropCommand_unseen : (dropCommand s).unseen = s.unseen := rfl
@[simp] theorem dropCommand_busy : (dropCommand s).busy = s.busy := rfl
end

/-! ## rejectCommand -/

section
@[simp] theorem rejectCommand_ie : (rejectCommand s).ie = s.ie := rfl
@[simp] theorem rejectCommand_done : (rejectCommand s).done = true := rfl
@[simp] theorem rejectCommand_err : (rejectCommand s).err = true := rfl
@[simp] theorem rejectCommand_ovr : (rejectCommand s).ovr = s.ovr := rfl
@[simp] theorem rejectCommand_errcode : (rejectCommand s).errcode = .illegalCmd := rfl
@[simp] theorem rejectCommand_regs : (rejectCommand s).regs = s.regs := rfl
@[simp] theorem rejectCommand_phase : (rejectCommand s).phase = s.phase := rfl
@[simp] theorem rejectCommand_var : (rejectCommand s).var = none := rfl
@[simp] theorem rejectCommand_snap : (rejectCommand s).snap = s.snap := rfl
@[simp] theorem rejectCommand_nblk : (rejectCommand s).nblk = s.nblk := rfl
@[simp] theorem rejectCommand_i : (rejectCommand s).i = s.i := rfl
@[simp] theorem rejectCommand_j : (rejectCommand s).j = s.j := rfl
@[simp] theorem rejectCommand_errAddr : (rejectCommand s).errAddr = s.errAddr := rfl
@[simp] theorem rejectCommand_k0 : (rejectCommand s).k0 = s.k0 := rfl
@[simp] theorem rejectCommand_ipadState : (rejectCommand s).ipadState = s.ipadState := rfl
@[simp] theorem rejectCommand_opadState : (rejectCommand s).opadState = s.opadState := rfl
@[simp] theorem rejectCommand_u : (rejectCommand s).u = s.u := rfl
@[simp] theorem rejectCommand_t : (rejectCommand s).t = s.t := rfl
@[simp] theorem rejectCommand_waiting : (rejectCommand s).waiting = s.waiting := rfl
@[simp] theorem rejectCommand_mem : (rejectCommand s).mem = s.mem := rfl
@[simp] theorem rejectCommand_bus : (rejectCommand s).bus = s.bus := rfl
@[simp] theorem rejectCommand_pending : (rejectCommand s).pending = s.pending := rfl
@[simp] theorem rejectCommand_reply : (rejectCommand s).reply = s.reply := rfl
@[simp] theorem rejectCommand_platform : (rejectCommand s).platform = s.platform := rfl
@[simp] theorem rejectCommand_disturbed : (rejectCommand s).disturbed = s.disturbed := rfl
@[simp] theorem rejectCommand_unspecified : (rejectCommand s).unspecified = s.unspecified := rfl
@[simp] theorem rejectCommand_draws : (rejectCommand s).draws = s.draws := rfl
@[simp] theorem rejectCommand_unseen : (rejectCommand s).unseen = s.unseen := rfl
@[simp] theorem rejectCommand_busy : (rejectCommand s).busy = s.busy := rfl
end

/-! ## clearStatus -/

section
variable (w : Word)
@[simp] theorem clearStatus_ie : (clearStatus w s).ie = s.ie := rfl
@[simp] theorem clearStatus_done : (clearStatus w s).done = (s.done && !w.getLsbD 1) := rfl
@[simp] theorem clearStatus_err : (clearStatus w s).err = (s.err && !w.getLsbD 2) := rfl
@[simp] theorem clearStatus_ovr : (clearStatus w s).ovr = (s.ovr && !w.getLsbD 3) := rfl
@[simp] theorem clearStatus_errcode : (clearStatus w s).errcode = if w.getLsbD 2 then .none else s.errcode := rfl
@[simp] theorem clearStatus_regs : (clearStatus w s).regs = s.regs := rfl
@[simp] theorem clearStatus_phase : (clearStatus w s).phase = s.phase := rfl
@[simp] theorem clearStatus_var : (clearStatus w s).var = s.var := rfl
@[simp] theorem clearStatus_snap : (clearStatus w s).snap = s.snap := rfl
@[simp] theorem clearStatus_nblk : (clearStatus w s).nblk = s.nblk := rfl
@[simp] theorem clearStatus_i : (clearStatus w s).i = s.i := rfl
@[simp] theorem clearStatus_j : (clearStatus w s).j = s.j := rfl
@[simp] theorem clearStatus_errAddr : (clearStatus w s).errAddr = s.errAddr := rfl
@[simp] theorem clearStatus_k0 : (clearStatus w s).k0 = s.k0 := rfl
@[simp] theorem clearStatus_ipadState : (clearStatus w s).ipadState = s.ipadState := rfl
@[simp] theorem clearStatus_opadState : (clearStatus w s).opadState = s.opadState := rfl
@[simp] theorem clearStatus_u : (clearStatus w s).u = s.u := rfl
@[simp] theorem clearStatus_t : (clearStatus w s).t = s.t := rfl
@[simp] theorem clearStatus_waiting : (clearStatus w s).waiting = s.waiting := rfl
@[simp] theorem clearStatus_mem : (clearStatus w s).mem = s.mem := rfl
@[simp] theorem clearStatus_bus : (clearStatus w s).bus = s.bus := rfl
@[simp] theorem clearStatus_pending : (clearStatus w s).pending = s.pending := rfl
@[simp] theorem clearStatus_reply : (clearStatus w s).reply = s.reply := rfl
@[simp] theorem clearStatus_platform : (clearStatus w s).platform = s.platform := rfl
@[simp] theorem clearStatus_disturbed : (clearStatus w s).disturbed = s.disturbed := rfl
@[simp] theorem clearStatus_unspecified : (clearStatus w s).unspecified = s.unspecified := rfl
@[simp] theorem clearStatus_draws : (clearStatus w s).draws = s.draws := rfl
@[simp] theorem clearStatus_unseen : (clearStatus w s).unseen = s.unseen := rfl
@[simp] theorem clearStatus_busy : (clearStatus w s).busy = s.busy := rfl
end

/-! ## abandonOutput -/

section
@[simp] theorem abandonOutput_ie : (abandonOutput s).ie = s.ie := by unfold abandonOutput; split <;> rfl
@[simp] theorem abandonOutput_done : (abandonOutput s).done = s.done := by unfold abandonOutput; split <;> rfl
@[simp] theorem abandonOutput_err : (abandonOutput s).err = s.err := by unfold abandonOutput; split <;> rfl
@[simp] theorem abandonOutput_ovr : (abandonOutput s).ovr = s.ovr := by unfold abandonOutput; split <;> rfl
@[simp] theorem abandonOutput_errcode : (abandonOutput s).errcode = s.errcode := by unfold abandonOutput; split <;> rfl
@[simp] theorem abandonOutput_regs : (abandonOutput s).regs = s.regs := by unfold abandonOutput; split <;> rfl
@[simp] theorem abandonOutput_phase : (abandonOutput s).phase = s.phase := by unfold abandonOutput; split <;> rfl
@[simp] theorem abandonOutput_var : (abandonOutput s).var = s.var := by unfold abandonOutput; split <;> rfl
@[simp] theorem abandonOutput_snap : (abandonOutput s).snap = s.snap := by unfold abandonOutput; split <;> rfl
@[simp] theorem abandonOutput_nblk : (abandonOutput s).nblk = s.nblk := by unfold abandonOutput; split <;> rfl
@[simp] theorem abandonOutput_i : (abandonOutput s).i = s.i := by unfold abandonOutput; split <;> rfl
@[simp] theorem abandonOutput_j : (abandonOutput s).j = s.j := by unfold abandonOutput; split <;> rfl
@[simp] theorem abandonOutput_errAddr : (abandonOutput s).errAddr = s.errAddr := by unfold abandonOutput; split <;> rfl
@[simp] theorem abandonOutput_k0 : (abandonOutput s).k0 = s.k0 := by unfold abandonOutput; split <;> rfl
@[simp] theorem abandonOutput_ipadState : (abandonOutput s).ipadState = s.ipadState := by unfold abandonOutput; split <;> rfl
@[simp] theorem abandonOutput_opadState : (abandonOutput s).opadState = s.opadState := by unfold abandonOutput; split <;> rfl
@[simp] theorem abandonOutput_u : (abandonOutput s).u = s.u := by unfold abandonOutput; split <;> rfl
@[simp] theorem abandonOutput_t : (abandonOutput s).t = s.t := by unfold abandonOutput; split <;> rfl
@[simp] theorem abandonOutput_waiting : (abandonOutput s).waiting = s.waiting := by unfold abandonOutput; split <;> rfl
@[simp] theorem abandonOutput_bus : (abandonOutput s).bus = s.bus := by unfold abandonOutput; split <;> rfl
@[simp] theorem abandonOutput_pending : (abandonOutput s).pending = s.pending := by unfold abandonOutput; split <;> rfl
@[simp] theorem abandonOutput_reply : (abandonOutput s).reply = s.reply := by unfold abandonOutput; split <;> rfl
@[simp] theorem abandonOutput_platform : (abandonOutput s).platform = s.platform := by unfold abandonOutput; split <;> rfl
@[simp] theorem abandonOutput_disturbed : (abandonOutput s).disturbed = s.disturbed := by unfold abandonOutput; split <;> rfl
@[simp] theorem abandonOutput_unseen : (abandonOutput s).unseen = s.unseen := by unfold abandonOutput; split <;> rfl
@[simp] theorem abandonOutput_busy : (abandonOutput s).busy = s.busy := by simp [State.busy]
end

/-- Without a derivation nothing is abandoned. -/
@[simp] theorem abandonOutput_idle (h : s.busy = false) : abandonOutput s = s := by
  simp [abandonOutput, h]

/-! ## resetEngine -/

section
@[simp] theorem resetEngine_ie : (resetEngine s).ie = false := rfl
@[simp] theorem resetEngine_done : (resetEngine s).done = false := rfl
@[simp] theorem resetEngine_err : (resetEngine s).err = false := rfl
@[simp] theorem resetEngine_ovr : (resetEngine s).ovr = false := rfl
@[simp] theorem resetEngine_errcode : (resetEngine s).errcode = .none := rfl
@[simp] theorem resetEngine_regs : (resetEngine s).regs = Params.zero := rfl
@[simp] theorem resetEngine_phase : (resetEngine s).phase = phaseIdle := rfl
@[simp] theorem resetEngine_var : (resetEngine s).var = none := rfl
@[simp] theorem resetEngine_snap : (resetEngine s).snap = Params.zero := rfl
@[simp] theorem resetEngine_nblk : (resetEngine s).nblk = 0 := rfl
@[simp] theorem resetEngine_i : (resetEngine s).i = 0 := rfl
@[simp] theorem resetEngine_j : (resetEngine s).j = 0 := rfl
@[simp] theorem resetEngine_errAddr : (resetEngine s).errAddr = 0 := rfl
@[simp] theorem resetEngine_k0 : (resetEngine s).k0 = none := rfl
@[simp] theorem resetEngine_ipadState : (resetEngine s).ipadState = none := rfl
@[simp] theorem resetEngine_opadState : (resetEngine s).opadState = none := rfl
@[simp] theorem resetEngine_u : (resetEngine s).u = none := rfl
@[simp] theorem resetEngine_t : (resetEngine s).t = none := rfl
@[simp] theorem resetEngine_waiting : (resetEngine s).waiting = false := rfl
@[simp] theorem resetEngine_mem : (resetEngine s).mem = (abandonOutput s).mem := rfl
@[simp] theorem resetEngine_bus : (resetEngine s).bus = s.bus := rfl
@[simp] theorem resetEngine_pending : (resetEngine s).pending = s.pending := rfl
@[simp] theorem resetEngine_reply : (resetEngine s).reply = s.reply := rfl
@[simp] theorem resetEngine_platform : (resetEngine s).platform = s.platform := rfl
@[simp] theorem resetEngine_disturbed : (resetEngine s).disturbed = false := rfl
@[simp] theorem resetEngine_unspecified : (resetEngine s).unspecified = (abandonOutput s).unspecified := rfl
@[simp] theorem resetEngine_draws : (resetEngine s).draws = (abandonOutput s).draws := rfl
@[simp] theorem resetEngine_unseen : (resetEngine s).unseen = [] := rfl
@[simp] theorem resetEngine_busy : (resetEngine s).busy = false := rfl
end

/-! ## seeStatus -/

section
@[simp] theorem seeStatus_ie : (seeStatus s).ie = s.ie := by unfold seeStatus; split <;> rfl
@[simp] theorem seeStatus_done : (seeStatus s).done = s.done := by unfold seeStatus; split <;> rfl
@[simp] theorem seeStatus_err : (seeStatus s).err = s.err := by unfold seeStatus; split <;> rfl
@[simp] theorem seeStatus_ovr : (seeStatus s).ovr = s.ovr := by unfold seeStatus; split <;> rfl
@[simp] theorem seeStatus_errcode : (seeStatus s).errcode = s.errcode := by unfold seeStatus; split <;> rfl
@[simp] theorem seeStatus_regs : (seeStatus s).regs = s.regs := by unfold seeStatus; split <;> rfl
@[simp] theorem seeStatus_phase : (seeStatus s).phase = s.phase := by unfold seeStatus; split <;> rfl
@[simp] theorem seeStatus_var : (seeStatus s).var = s.var := by unfold seeStatus; split <;> rfl
@[simp] theorem seeStatus_snap : (seeStatus s).snap = s.snap := by unfold seeStatus; split <;> rfl
@[simp] theorem seeStatus_nblk : (seeStatus s).nblk = s.nblk := by unfold seeStatus; split <;> rfl
@[simp] theorem seeStatus_i : (seeStatus s).i = s.i := by unfold seeStatus; split <;> rfl
@[simp] theorem seeStatus_j : (seeStatus s).j = s.j := by unfold seeStatus; split <;> rfl
@[simp] theorem seeStatus_errAddr : (seeStatus s).errAddr = s.errAddr := by unfold seeStatus; split <;> rfl
@[simp] theorem seeStatus_k0 : (seeStatus s).k0 = s.k0 := by unfold seeStatus; split <;> rfl
@[simp] theorem seeStatus_ipadState : (seeStatus s).ipadState = s.ipadState := by unfold seeStatus; split <;> rfl
@[simp] theorem seeStatus_opadState : (seeStatus s).opadState = s.opadState := by unfold seeStatus; split <;> rfl
@[simp] theorem seeStatus_u : (seeStatus s).u = s.u := by unfold seeStatus; split <;> rfl
@[simp] theorem seeStatus_t : (seeStatus s).t = s.t := by unfold seeStatus; split <;> rfl
@[simp] theorem seeStatus_waiting : (seeStatus s).waiting = s.waiting := by unfold seeStatus; split <;> rfl
@[simp] theorem seeStatus_mem : (seeStatus s).mem = s.mem := by unfold seeStatus; split <;> rfl
@[simp] theorem seeStatus_bus : (seeStatus s).bus = s.bus := by unfold seeStatus; split <;> rfl
@[simp] theorem seeStatus_pending : (seeStatus s).pending = s.pending := by unfold seeStatus; split <;> rfl
@[simp] theorem seeStatus_reply : (seeStatus s).reply = s.reply := by unfold seeStatus; split <;> rfl
@[simp] theorem seeStatus_platform : (seeStatus s).platform = s.platform := by unfold seeStatus; split <;> rfl
@[simp] theorem seeStatus_disturbed : (seeStatus s).disturbed = s.disturbed := by unfold seeStatus; split <;> rfl
@[simp] theorem seeStatus_unspecified : (seeStatus s).unspecified = s.unspecified := by unfold seeStatus; split <;> rfl
@[simp] theorem seeStatus_draws : (seeStatus s).draws = s.draws := by unfold seeStatus; split <;> rfl
@[simp] theorem seeStatus_unseen : (seeStatus s).unseen = if s.done then [] else s.unseen := by
  unfold seeStatus; split <;> simp_all
@[simp] theorem seeStatus_busy : (seeStatus s).busy = s.busy := by simp [State.busy]
end

/-- BUSY in terms of the phase (R35). -/
theorem busy_eq_true : s.busy = true ↔ s.phase ≠ phaseIdle := by simp [State.busy]

theorem busy_eq_false : s.busy = false ↔ s.phase = phaseIdle := by simp [State.busy]

end Sys2Proof.Machine
end

