-- ==== Sys2Proof/Laws/Ops.lean ====
section
/-! SUPPORT. What each shared operation can do, once: if it answers a next state, one of these cases
holds. The meanings' proofs cite these and do not unfold the operations. -/

namespace Sys2Proof.Machine

variable {s s' : State}

/-- Reading an element that may be absent succeeds only when it is there. -/
theorem withValue_next {α : Type} {slot : Slot} {x : Option α} {rest : α → Result}
    (h : withValue slot x rest = .next s') : ∃ a, x = some a ∧ rest a = .next s' := by
  cases x with
  | none => simp [withValue] at h
  | some a => exact ⟨a, rfl, h⟩

@[simp] theorem withValue_some {α : Type} {slot : Slot} {a : α} {rest : α → Result} :
    withValue slot (some a) rest = rest a := rfl

/-- A micro-operation that needs a variant goes on only with one. -/
theorem withVariant_next {rest : Variant → Result} (h : withVariant s rest = .next s') :
    ∃ v, s.var = some v ∧ rest v = .next s' := by
  unfold withVariant at h
  split at h
  · exact ⟨_, ‹_›, h⟩
  · simp at h

theorem withVariant_some {v : Variant} {rest : Variant → Result} (h : s.var = some v) :
    withVariant s rest = rest v := by simp [withVariant, h]

/-- Reading a byte string: none for length 0, else one transaction answered with its bytes, with a bus
error (the error end), or never. -/
theorem withString_next {addr len : Word} {rest : List Byte → State → Result}
    (h : withString addr len s rest = .next s') :
    (len = 0 ∧ rest [] s = .next s') ∨
    (len ≠ 0 ∧ addr.toNat + len.toNat ≤ Config.memorySpace ∧
      ((nextAnswer s = .ok ∧
          rest (s.mem.readBytes addr.toNat len.toNat) (popAnswer s) = .next s') ∨
        (∃ k l, nextAnswer s = .busErr k l ∧
          s' = abort (.busError (busErrorAddr addr.toNat len.toNat k)) (popAnswer s)) ∨
        (∃ l, nextAnswer s = .never l ∧ s' = { popAnswer s with waiting := true }))) := by
  unfold withString at h
  split at h
  · exact .inl ⟨‹_›, h⟩
  · split at h
    · simp at h
    · refine .inr ⟨‹_›, by omega, ?_⟩
      cases hn : nextAnswer s <;> simp only [hn] at h
      · exact .inl ⟨rfl, h⟩
      · exact .inr (.inl ⟨_, _, rfl, by simpa using h.symm⟩)
      · exact .inr (.inr ⟨_, rfl, by simpa using h.symm⟩)

/-- Writing a byte string: one transaction that stores it, stores part of it and is the error end, or
is never answered. -/
theorem withWrite_next {a n : Nat} {x : List Byte} {rest : State → Result}
    (h : withWrite a n x s rest = .next s') :
    a + n ≤ Config.memorySpace ∧
      ((nextAnswer s = .ok ∧
          rest { popAnswer s with mem := s.mem.writeBytes a x } = .next s') ∨
        (∃ k l, nextAnswer s = .busErr k l ∧
          s' = abort (.busError (busErrorAddr a n k))
            { popAnswer s with mem := s.mem.writeLanded a x l }) ∨
        (∃ l, nextAnswer s = .never l ∧
          s' = { popAnswer s with mem := s.mem.writeLanded a x l, waiting := true })) := by
  unfold withWrite at h
  split at h
  · simp at h
  · refine ⟨by omega, ?_⟩
    cases hn : nextAnswer s <;> simp only [hn] at h
    · exact .inl ⟨rfl, h⟩
    · exact .inr (.inl ⟨_, _, rfl, by simpa using h.symm⟩)
    · exact .inr (.inr ⟨_, rfl, by simpa using h.symm⟩)

/-- A bus error's address lies inside the transaction (R46, R47). -/
theorem busErrorAddr_inside {a n k : Nat} (hn : 1 ≤ n) (h : a + n ≤ Config.memorySpace) :
    a ≤ (busErrorAddr a n k).toNat ∧ (busErrorAddr a n k).toNat < a + n := by
  have hk : k % n < n := Nat.mod_lt _ (by omega)
  simp only [Config.memorySpace] at h
  have : (busErrorAddr a n k).toNat = a + k % n := by
    simp only [busErrorAddr, BitVec.toNat_ofNat]
    omega
  omega

/-- Without a race WRITEOUT stores the block's own bytes and draws nothing. -/
theorem outputOf_clean {w : Range} {x : List Byte} (h : raced w s = false) : outputOf w x s = (x, s) := by
  simp [outputOf, h]

/-- Under a race it stores free bytes and records the draw. -/
theorem outputOf_raced {w : Range} {x : List Byte} (h : raced w s = true) :
    outputOf w x s = (racedBytes w.start x s,
      { s with
        draws := s.draws + 1
        unspecified := if s.disturbed then taint w s.unspecified else s.unspecified }) := by
  simp [outputOf, h]

@[simp] theorem length_racedBytes (a : Nat) (x : List Byte) :
    (racedBytes a x s).length = x.length := by simp [racedBytes]

/-- Byte `k` under a race: free if an input was disturbed or its address is recorded, else its own (U3). -/
theorem getD_racedBytes {a k : Nat} {x : List Byte} (h : k < x.length) :
    (racedBytes a x s).getD k 0#8 =
      if s.disturbed || recorded s.unspecified (a + k) then Config.freeByte s.draws k
      else x.getD k 0#8 := by
  simp [racedBytes, h]

@[simp] theorem length_outputOf (w : Range) (x : List Byte) : (outputOf w x s).1.length = x.length := by
  unfold outputOf
  split <;> simp

@[simp] theorem length_foreignBytes (a : Nat) (x : List Byte) :
    (foreignBytes a x s).length = x.length := by simp [foreignBytes]

theorem contains_iff (r : Range) (a : Nat) :
    r.contains a = true ↔ r.start ≤ a ∧ a < r.start + r.len := decide_eq_true_iff

/-- An address lies in the shared bytes of two ranges exactly when it lies in both. -/
theorem contains_inter (r q : Range) (a : Nat) :
    (r.inter q).contains a = (r.contains a && q.contains a) := by
  rw [Bool.eq_iff_iff]
  simp only [contains_iff, Range.inter, Bool.and_eq_true]
  omega

/-- Recording a range adds its bytes. -/
theorem recorded_taint (r : Range) (l : List Range) (a : Nat) :
    recorded (taint r l) a = (r.contains a || recorded l a) := by
  unfold taint
  split
  · have : r.contains a = false := by simp only [Range.contains, decide_eq_false_iff_not]; omega
    simp [this]
  · rfl

/-- The bytes of one range without those of another. -/
theorem recorded_minus (r w : Range) (a : Nat) :
    recorded (r.minus w) a = (r.contains a && !w.contains a) := by
  rw [Bool.eq_iff_iff]
  simp only [recorded, Range.minus, List.any_filter, List.any_cons, List.any_nil, Range.contains,
    Bool.or_false, Bool.or_eq_true, Bool.and_eq_true, Bool.not_eq_true', decide_eq_true_eq,
    decide_eq_false_iff_not]
  omega

/-- Taking a range out of the record takes out its bytes. -/
theorem recorded_lift (w : Range) (l : List Range) (a : Nat) :
    recorded (lift w l) a = (recorded l a && !w.contains a) := by
  have h : ∀ r : Range, (r.minus w).any (fun q => q.contains a) = (r.contains a && !w.contains a) :=
    fun r => recorded_minus r w a
  simp only [recorded, lift, List.any_flatMap, h]
  induction l with
  | nil => rfl
  | cons r rest ih => rw [List.any_cons, List.any_cons, ih, Bool.and_or_distrib_right]

/-- An address lies in the shared part of a range exactly when it lies in the range and in one of the
others. -/
theorem recorded_shared (w : Range) (l : List Range) (a : Nat) :
    recorded (shared w l) a = (w.contains a && recorded l a) := by
  rw [Bool.eq_iff_iff]
  simp only [recorded, shared, List.any_eq_true, List.mem_filter, List.mem_map, Bool.and_eq_true,
    decide_eq_true_eq]
  constructor
  · rintro ⟨_, ⟨⟨r, hr, rfl⟩, -⟩, h⟩
    rw [contains_inter, Bool.and_eq_true] at h
    exact ⟨h.1, r, hr, h.2⟩
  · rintro ⟨hw, r, hr, h⟩
    have hi : (w.inter r).contains a = true := by rw [contains_inter, hw, h]; rfl
    refine ⟨_, ⟨⟨r, hr, rfl⟩, fun h0 => ?_⟩, hi⟩
    have := (contains_iff _ _).mp hi
    omega

theorem recorded_append (l l' : List Range) (a : Nat) :
    recorded (l ++ l') a = (recorded l a || recorded l' a) := List.any_append

/-- Which outputs the engine owns: the running derivation's, and those whose end the host has not
seen (R126). -/
theorem ownsOutput_eq (a : Nat) : s.ownsOutput a =
    (s.busy && s.snap.outRange.contains a || s.unseen.any fun p => p.outRange.contains a) := by
  unfold State.ownsOutput State.owners recorded
  cases s.busy <;> simp [Function.comp_def]

/-- The record after an agent's store `w` (R126, U3). -/
theorem recorded_agentStore (w : Range) (a : Nat) :
    recorded (shared w (s.owners.map Params.outRange) ++ lift w s.unspecified) a =
      if w.contains a then s.ownsOutput a else recorded s.unspecified a := by
  rw [recorded_append, recorded_shared, recorded_lift]
  cases w.contains a <;> simp [State.ownsOutput]

/-- An agent's store: the bytes are in memory and nothing of the engine but the record of what the
contract leaves unspecified has changed. -/
theorem agentStore_next {a : Nat} {x : List Byte} (h : agentStore a x s = .next s') :
    a + x.length ≤ Config.memorySpace ∧ ∃ d l n,
      s' = { s with
        mem := s.mem.writeBytes a (foreignBytes a x s), disturbed := d, unspecified := l, draws := n } := by
  unfold agentStore at h
  split at h
  · simp at h
  · exact ⟨by omega, _, _, _, by simpa using h.symm⟩

@[simp] theorem inMemory_start (r : Range) : r.inMemory.start = r.start := Nat.max_zero _

/-- The part of an output range that exists ends inside the memory space. -/
theorem outRange_inMemory_le (p : Params) :
    p.outRange.start + p.outRange.inMemory.len ≤ Config.memorySpace := by
  have := p.outAddr.isLt
  simp only [Range.inMemory, Range.inter, Params.outRange, Config.memorySpace]
  omega

@[simp] theorem length_freeBytes (d n : Nat) : (freeBytes d n).length = n := by simp [freeBytes]

/-- Byte `k` of a draw (U2, U3). -/
theorem getD_freeBytes {d n k : Nat} (h : k < n) : (freeBytes d n).getD k 0#8 = Config.freeByte d k := by
  simp [freeBytes, h]

/-- An abandoned output keeps the memory's canonical form. -/
theorem wf_abandonOutput (hm : Memory.wf s.mem = true) : Memory.wf (abandonOutput s).mem = true := by
  unfold abandonOutput
  split
  · exact Memory.wf_writeBytes _ _ _ (by simpa using outRange_inMemory_le s.snap) hm
  · exact hm

/-- What every byte of memory reads as after a derivation was abandoned: free in its output range, as
before elsewhere (U2, R124). -/
theorem readByte_abandonOutput (hm : Memory.wf s.mem = true) (a : Nat) :
    (abandonOutput s).mem.readByte a =
      if s.busy = true ∧ s.snap.outRange.contains a = true ∧ a < Config.memorySpace then
        Config.freeByte s.draws (a - s.snap.outRange.start)
      else s.mem.readByte a := by
  unfold abandonOutput
  cases hb : s.busy
  · simp
  · have hin : s.snap.outRange.start ≤ a ∧ a < s.snap.outRange.start + s.snap.outRange.inMemory.len ↔
        s.snap.outRange.contains a = true ∧ a < Config.memorySpace := by
      simp only [contains_iff, Range.inMemory, Range.inter]
      omega
    rw [if_pos rfl, Memory.readByte_writeBytes _ _ _ _ (by simpa using outRange_inMemory_le s.snap) hm]
    simp only [inMemory_start, length_freeBytes, hin, true_and]
    split
    · exact getD_freeBytes (by have := hin.mpr ‹_›; omega)
    · rfl

/-- The record after a derivation was abandoned. -/
theorem recorded_abandonOutput (a : Nat) : recorded (abandonOutput s).unspecified a =
    (s.busy && s.snap.outRange.contains a || recorded s.unspecified a) := by
  unfold abandonOutput
  cases s.busy <;> simp [recorded_taint]

/-- What a register read changes: the record of what the host has seen, and only at STATUS (R126). -/
theorem noteRead_eq (off : BitVec 6) : noteRead off s =
    { s with unseen := if regAt off = some .status ∧ s.done = true then [] else s.unseen } := by
  unfold noteRead seeStatus
  split
  · split
    · rw [if_pos ⟨‹_›, ‹_›⟩]
    · rw [if_neg fun c => absurd c.2 ‹_›]
  · rw [if_neg fun c => absurd c.1 ‹_›]

/-- What CHECK's range tests passing says (R86). -/
theorem checkRanges_none {v : Variant} {p : Params} (h : checkRanges v p = none) :
    blockCount v p.outLen.toNat ≤ 2 ^ 32 - 1 ∧
      p.pwRange.wraps = false ∧ p.saltRange.wraps = false ∧ p.outRange.wraps = false ∧
      p.outRange.overlaps p.pwRange = false ∧ p.outRange.overlaps p.saltRange = false := by
  unfold checkRanges at h
  split at h
  · simp at h
  · split at h
    · simp at h
    · split at h
      · simp at h
      · simp_all

/-- A range that passed CHECK ends inside the memory space, unless it is empty. -/
theorem wraps_false {r : Range} (h : r.wraps = false) (hl : 1 ≤ r.len) :
    r.start + r.len ≤ Config.memorySpace := by
  simp only [Range.wraps, decide_eq_false_iff_not] at h
  omega

/-- Block `i` of a derivation starts before the end of its output (R93). -/
theorem blockOffset_lt {v : Variant} {s : State} (hi : 1 ≤ s.i.toNat)
    (hn : s.i.toNat ≤ blockCount v s.snap.outLen.toNat) :
    blockOffset v s.i < s.snap.outLen.toNat := by
  have hD := digestSize_pos v
  unfold blockOffset
  have h1 : blockCount v s.snap.outLen.toNat * digestSize v ≤
      s.snap.outLen.toNat + digestSize v - 1 := Nat.div_mul_le_self _ _
  have h2 : s.i.toNat * digestSize v ≤ blockCount v s.snap.outLen.toNat * digestSize v :=
    Nat.mul_le_mul_right _ hn
  have h3 : s.i.toNat * digestSize v = (s.i.toNat - 1) * digestSize v + digestSize v := by
    conv_lhs => rw [show s.i.toNat = s.i.toNat - 1 + 1 by omega, Nat.add_mul, one_mul]
  omega

/-- The successor of WRITEOUT as one update of the index and the phase (R85, R90). -/
theorem nextBlock_eq (s : State) : nextBlock s = { s with
    i := if s.i = s.nblk then s.i else BitVec.ofNat 32 (s.i.toNat + 1)
    phase := if s.i = s.nblk then phaseFinish else phaseU1 } := by
  unfold nextBlock
  by_cases h : s.i = s.nblk <;> simp only [h, if_true, if_false]

end Sys2Proof.Machine
end

