-- ==== Sys2Proof/Laws/Invariant.lean ====
section
/-! SUPPORT. Each shared operation and each meaning keeps the invariant `Inv`: one lemma apiece, from
which a proof about a step assembles the whole. -/

namespace Sys2Proof.Machine

variable {s s' : State}

/-- An idle state: what the invariant asks of it. -/
theorem inv_of_idle (hp : s.phase = phaseIdle) (hm : Memory.wf s.mem = true) (hs : s.secretsAbsent)
    (hc : s.err = false → s.errcode = .none)
    (hr : s.errcode ≠ .derivationFailed ∧ s.errcode ≠ .blockOverflow) (hw : s.waiting = false)
    (hn : s.i.toNat ≤ s.nblk.toNat ∧ s.j.toNat ≤ s.snap.iter.toNat) : Inv s where
  memory := hm
  phaseLegal := by simp [hp]
  errcodeClear := hc
  errcodeRaised := hr
  busyClear := by simp [State.busy, hp]
  busyVariant := by simp [State.busy, hp]
  waitingPhase := by simp [hw]
  idleAbsent := fun _ => hs
  earlyAbsent := by simp [hp]
  keyHeld := by simp [hp, hs.1]
  earlyZero := by simp [hp]
  counters := hn
  derivation := fun v _ => by
    constructor <;> simp [hp, hs.1]

/-- The error end keeps the invariant. -/
theorem inv_abort (h : Inv s) (hw : s.waiting = false) (c : AbortCause) (hc : c ≠ .blockOverflow) :
    Inv (abort c s) := by
  refine inv_of_idle rfl h.memory ⟨rfl, rfl, rfl, rfl, rfl⟩ (by simp) ?_ hw h.counters
  cases c <;> simp_all [abortCode]

/-- Reset establishes the invariant, whatever the engine was doing. -/
theorem inv_resetEngine (hm : Memory.wf s.mem = true) : Inv (resetEngine s) :=
  inv_of_idle rfl (wf_abandonOutput hm) ⟨rfl, rfl, rfl, rfl, rfl⟩ (fun _ => rfl) (by simp) rfl
    ⟨le_rfl, le_rfl⟩

/-- Fields the invariant does not look at may change, DONE only in an idle state. -/
theorem inv_host_fields (h : Inv s) (ie ovr : Bool) (r : Params) (p : List Event) (a : Option Reply) :
    Inv { s with ie := ie, ovr := ovr, regs := r, pending := p, reply := a } :=
  { memory := h.memory, phaseLegal := h.phaseLegal, errcodeClear := h.errcodeClear
    errcodeRaised := h.errcodeRaised, busyClear := h.busyClear, busyVariant := h.busyVariant
    waitingPhase := h.waitingPhase, idleAbsent := h.idleAbsent, earlyAbsent := h.earlyAbsent
    keyHeld := h.keyHeld, earlyZero := h.earlyZero, counters := h.counters
    derivation := fun v hv =>
      have d := h.derivation v hv
      { checked := fun hp => let c := d.checked hp; ⟨c.1, c.2, c.3, c.4⟩
        key := d.key, keyStates := d.keyStates, blockIndex := d.blockIndex, values := d.values
        iterating := d.iterating, accumulating := d.accumulating, complete := d.complete } }

/-- Memory in canonical form and the models' own records may change under it too. -/
theorem inv_memory_fields (h : Inv s) (m : Memory) (hm : Memory.wf m = true) (b : List BusAnswer)
    (d : Bool) (l : List Range) (n : Nat) :
    Inv { s with mem := m, bus := b, disturbed := d, unspecified := l, draws := n } :=
  { memory := hm, phaseLegal := h.phaseLegal, errcodeClear := h.errcodeClear
    errcodeRaised := h.errcodeRaised, busyClear := h.busyClear, busyVariant := h.busyVariant
    waitingPhase := h.waitingPhase, idleAbsent := h.idleAbsent, earlyAbsent := h.earlyAbsent
    keyHeld := h.keyHeld, earlyZero := h.earlyZero, counters := h.counters
    derivation := fun v hv =>
      have d := h.derivation v hv
      { checked := fun hp => let c := d.checked hp; ⟨c.1, c.2, c.3, c.4⟩
        key := d.key, keyStates := d.keyStates, blockIndex := d.blockIndex, values := d.values
        iterating := d.iterating, accumulating := d.accumulating, complete := d.complete } }

/-- A micro-operation with a memory access may wait for its answer. -/
theorem inv_waiting (h : Inv s) (hp : s.phase ∈ [phaseKeyload, phaseU1, phaseWriteout]) :
    Inv { s with waiting := true } :=
  { memory := h.memory, phaseLegal := h.phaseLegal, errcodeClear := h.errcodeClear
    errcodeRaised := h.errcodeRaised, busyClear := h.busyClear, busyVariant := h.busyVariant
    waitingPhase := fun _ => hp, idleAbsent := h.idleAbsent, earlyAbsent := h.earlyAbsent
    keyHeld := h.keyHeld, earlyZero := h.earlyZero, counters := h.counters
    derivation := fun v hv =>
      have d := h.derivation v hv
      { checked := fun hp => let c := d.checked hp; ⟨c.1, c.2, c.3, c.4⟩
        key := d.key, keyStates := d.keyStates, blockIndex := d.blockIndex, values := d.values
        iterating := d.iterating, accumulating := d.accumulating, complete := d.complete } }

/-- Acceptance starts a derivation that meets the invariant. -/
theorem inv_accept (h : Inv s) (hb : s.busy = false) (v : Variant) : Inv (accept v s) := by
  have hs := h.idleAbsent hb
  have hw : s.waiting = false := by
    by_contra hc
    have := h.waitingPhase (by simpa using hc)
    rw [(busy_eq_false s).mp hb] at this
    simp at this
  exact {
    memory := h.memory
    phaseLegal := by simp
    errcodeClear := fun _ => rfl
    errcodeRaised := by simp
    busyClear := by simp
    busyVariant := by simp
    waitingPhase := by simp [hw]
    idleAbsent := by simp
    earlyAbsent := fun _ => hs
    keyHeld := by simp [hs.1]
    earlyZero := by simp
    counters := by simp
    derivation := fun v' _ => by constructor <;> simp [hs.1] }

theorem inv_derive (h : Inv s) (v : Variant) (he : derive v s = .next s') : Inv s' := by
  unfold derive at he
  split at he <;> simp only [Host.Outcome.next.injEq] at he <;> subst he
  · exact inv_host_fields h s.ie true s.regs s.pending s.reply
  · rename_i hb
    exact inv_accept h (Bool.eq_false_iff.mpr hb) v

/-- Rejecting a word that is no command keeps the invariant. -/
theorem inv_illegalCommand (h : Inv s) : Inv (illegalCommand s) := by
  unfold illegalCommand
  split
  · exact inv_host_fields h s.ie true s.regs s.pending s.reply
  · rename_i hbt
    have hb : s.busy = false := Bool.eq_false_iff.mpr hbt
    have hp := (busy_eq_false s).mp hb
    refine inv_of_idle hp h.memory (h.idleAbsent hb) (by simp) (by simp) ?_ h.counters
    by_contra hc
    have := h.waitingPhase (by simpa using hc)
    simp [hp] at this

/-- Clearing status bits keeps the invariant. -/
theorem inv_clearStatus (h : Inv s) (w : Word) : Inv (clearStatus w s) where
  memory := h.memory
  phaseLegal := h.phaseLegal
  errcodeClear := by
    have := h.errcodeClear
    simp only [clearStatus_err, clearStatus_errcode]
    cases w.getLsbD 2 <;> simp_all
  errcodeRaised := by
    have := h.errcodeRaised
    simp only [clearStatus_errcode]
    split <;> simp_all
  busyClear := fun hb => by have := h.busyClear hb; simp [this]
  busyVariant := h.busyVariant
  waitingPhase := h.waitingPhase
  idleAbsent := h.idleAbsent
  earlyAbsent := h.earlyAbsent
  keyHeld := h.keyHeld
  earlyZero := h.earlyZero
  counters := h.counters
  derivation := fun v hv =>
    have d := h.derivation v hv
    { checked := fun hp => let c := d.checked hp; ⟨c.1, c.2, c.3, c.4⟩
      key := d.key, keyStates := d.keyStates, blockIndex := d.blockIndex, values := d.values
      iterating := d.iterating, accumulating := d.accumulating, complete := d.complete }

/-- What the host has seen is no part of the invariant. -/
theorem inv_seeStatus (h : Inv s) : Inv (seeStatus s) := by
  unfold seeStatus
  split
  · exact {
      memory := h.memory, phaseLegal := h.phaseLegal, errcodeClear := h.errcodeClear
      errcodeRaised := h.errcodeRaised, busyClear := h.busyClear, busyVariant := h.busyVariant
      waitingPhase := h.waitingPhase, idleAbsent := h.idleAbsent, earlyAbsent := h.earlyAbsent
      keyHeld := h.keyHeld, earlyZero := h.earlyZero, counters := h.counters
      derivation := fun v hv =>
        have d := h.derivation v hv
        { checked := fun hp => let c := d.checked hp; ⟨c.1, c.2, c.3, c.4⟩
          key := d.key, keyStates := d.keyStates, blockIndex := d.blockIndex, values := d.values
          iterating := d.iterating, accumulating := d.accumulating, complete := d.complete } }
  · exact h

theorem inv_noteRead (h : Inv s) (off : BitVec 6) : Inv (noteRead off s) := by
  unfold noteRead
  split
  · exact inv_seeStatus h
  · exact h

/-- Another agent's store keeps the invariant. -/
theorem inv_agentStore (h : Inv s) {a : Nat} {x : List Byte} (he : agentStore a x s = .next s') :
    Inv s' := by
  obtain ⟨ha, d, l, n, rfl⟩ := agentStore_next he
  exact inv_memory_fields h _
    (Memory.wf_writeBytes _ _ _ (by simpa using ha) h.memory) s.bus d l n

/-! ## The micro-operations -/

/-- The variant of a running derivation and what it guarantees. -/
theorem Inv.running (h : Inv s) (hb : s.phase ≠ phaseIdle) :
    ∃ v, s.var = some v ∧ DerivationInv v s := by
  have := h.busyVariant ((busy_eq_true s).mpr hb)
  obtain ⟨v, hv⟩ := Option.ne_none_iff_exists'.mp this
  exact ⟨v, hv, h.derivation v hv⟩

theorem inv_execCheck (h : Inv s) (hw : s.waiting = false) (hp : s.phase = phaseCheck)
    (he : execCheck s = .next s') : Inv s' := by
  unfold execCheck at he
  split at he
  · simp only [Host.Outcome.next.injEq] at he
    subst he
    exact inv_abort h hw _ (by simp)
  obtain ⟨v, hv, he⟩ := withVariant_next he
  have hs := h.earlyAbsent (by simp [hp])
  have hz := h.earlyZero (by simp [hp])
  cases hr : checkRanges v s.snap with
  | some cause =>
    simp only [hr, Host.Outcome.next.injEq] at he
    subst he
    refine inv_abort h hw _ ?_
    rintro rfl
    unfold checkRanges at hr
    split at hr
    · rename_i hgt
      have hD := digestSize_pos v
      have : blockCount v s.snap.outLen.toNat ≤ s.snap.outLen.toNat := by
        unfold blockCount
        rw [Nat.div_le_iff_le_mul hD]
        have := Nat.le_mul_of_pos_right s.snap.outLen.toNat hD
        omega
      have := s.snap.outLen.isLt
      omega
    · split at hr
      · simp at hr
      · split at hr <;> simp at hr
  | none =>
    simp only [hr, Host.Outcome.next.injEq] at he
    obtain ⟨hn, -⟩ := checkRanges_none hr
    have hnblk : (BitVec.ofNat 32 (blockCount v s.snap.outLen.toNat)).toNat =
        blockCount v s.snap.outLen.toNat := by
      simp only [BitVec.toNat_ofNat]
      omega
    subst he
    exact {
      memory := h.memory
      phaseLegal := by dsimp only; split <;> simp
      errcodeClear := h.errcodeClear
      errcodeRaised := h.errcodeRaised
      busyClear := fun _ => h.busyClear (by simp [State.busy, hp])
      busyVariant := by simp [hv]
      waitingPhase := by simp [hw]
      idleAbsent := fun _ => hs
      earlyAbsent := fun _ => hs
      keyHeld := by dsimp only; split <;> simp [hs.1]
      earlyZero := fun _ => hz
      counters := by simp [hz]
      derivation := fun v' hv' => by
        obtain rfl : v = v' := by simpa [hv] using hv'
        exact {
          checked := fun hm => {
            iterPositive := ‹_›
            outputNonempty := by
              rintro h0
              have h0 : s.snap.outLen = 0 := h0
              have : blockCount v 0 = 0 := by cases v <;> decide
              simp [h0, this] at hm
            rangesLegal := hr
            blocks := hnblk }
          key := by simp [hs.1]
          keyStates := by dsimp only; split <;> simp
          blockIndex := by dsimp only; split <;> simp
          values := by dsimp only; split <;> simp
          iterating := by dsimp only; split <;> simp
          accumulating := by dsimp only; split <;> simp
          complete := by dsimp only; split <;> simp } }

theorem inv_execKeyload (h : Inv s) (hw : s.waiting = false) (hp : s.phase = phaseKeyload)
    (he : execKeyload s = .next s') : Inv s' := by
  obtain ⟨v, hv, he⟩ := withVariant_next he
  have hs := h.earlyAbsent (by simp [hp])
  have hz := h.earlyZero (by simp [hp])
  have hd := h.derivation v hv
  have hch := hd.checked (by simp [hp])
  have key : ∀ b : List BusAnswer, ∀ p : List Byte, Inv { s with
      bus := b, k0 := some (paddedKey (cores s) v p), phase := phasePrecomp } := fun b p => {
    memory := h.memory
    phaseLegal := by simp
    errcodeClear := h.errcodeClear
    errcodeRaised := h.errcodeRaised
    busyClear := fun _ => h.busyClear (by simp [State.busy, hp])
    busyVariant := by simp [hv]
    waitingPhase := by simp [hw]
    idleAbsent := by simp [State.busy]
    earlyAbsent := by simp
    keyHeld := by simp
    earlyZero := fun _ => hz
    counters := h.counters
    derivation := fun v' hv' => by
      obtain rfl : v = v' := by simpa [hv] using hv'
      exact {
        checked := fun _ => ⟨hch.1, hch.2, hch.3, hch.4⟩
        key := by simp
        keyStates := by simp
        blockIndex := by simp
        values := by simp
        iterating := by simp
        accumulating := by simp
        complete := by simp } }
  rcases withString_next he with ⟨-, he⟩ | ⟨-, -, ⟨-, he⟩ | ⟨k, l, -, rfl⟩ | ⟨l, -, rfl⟩⟩
  · simp only [Host.Outcome.next.injEq] at he
    subst he
    exact key s.bus _
  · simp only [Host.Outcome.next.injEq] at he
    subst he
    exact key s.bus.tail _
  · exact inv_abort (inv_memory_fields h s.mem h.memory s.bus.tail s.disturbed s.unspecified s.draws)
      hw _ (by simp)
  · exact inv_waiting
      (inv_memory_fields h s.mem h.memory s.bus.tail s.disturbed s.unspecified s.draws)
      (by simp [hp])

theorem inv_execPrecomp (h : Inv s) (hw : s.waiting = false) (hp : s.phase = phasePrecomp)
    (he : execPrecomp s = .next s') : Inv s' := by
  obtain ⟨v, hv, he⟩ := withVariant_next he
  obtain ⟨k, hk, he⟩ := withValue_next he
  have hz := h.earlyZero (by simp [hp])
  have hd := h.derivation v hv
  have hch := hd.checked (by simp [hp])
  have hn : 1 ≤ s.nblk.toNat := by
    rw [hch.blocks]
    have hD := digestSize_pos v
    have : s.snap.outLen.toNat ≠ 0 := fun h0 => hch.outputNonempty (by
      apply BitVec.eq_of_toNat_eq; simpa using h0)
    unfold blockCount
    rw [Nat.le_div_iff_mul_le hD]
    omega
  simp only [Host.Outcome.next.injEq] at he
  subst he
  exact {
    memory := h.memory
    phaseLegal := by simp
    errcodeClear := h.errcodeClear
    errcodeRaised := h.errcodeRaised
    busyClear := fun _ => h.busyClear (by simp [State.busy, hp])
    busyVariant := by simp [hv]
    waitingPhase := by simp [hw]
    idleAbsent := by simp [State.busy]
    earlyAbsent := by simp
    keyHeld := by simp
    earlyZero := by simp
    counters := ⟨by simpa using hn, h.counters.2⟩
    derivation := fun v' hv' => by
      obtain rfl : v = v' := by simpa [hv] using hv'
      exact {
        checked := fun _ => ⟨hch.1, hch.2, hch.3, hch.4⟩
        key := by simp
        keyStates := fun _ => ⟨⟨_, rfl, by simp⟩, ⟨_, rfl, by simp⟩⟩
        blockIndex := fun _ => ⟨by simp, by simpa using hn⟩
        values := by simp
        iterating := by simp
        accumulating := by simp
        complete := by simp } }

theorem inv_execU1 (h : Inv s) (hw : s.waiting = false) (hp : s.phase = phaseU1)
    (he : execU1 s = .next s') : Inv s' := by
  obtain ⟨v, hv, he⟩ := withVariant_next he
  obtain ⟨ipad, hip, he⟩ := withValue_next he
  obtain ⟨opad, hop, he⟩ := withValue_next he
  have hd := h.derivation v hv
  have hch := hd.checked (by simp [hp])
  have hst := hd.keyStates (by simp [hp])
  have hk0 : s.k0 = none := by
    by_contra hc
    simp [h.keyHeld.mp hc] at hp
  have hopv : stateVariant opad = v := by
    obtain ⟨o, ho, hov⟩ := hst.2
    rw [hop] at ho
    simp_all
  have hiter : 1 ≤ s.snap.iter.toNat := by
    by_contra hc
    exact hch.iterPositive (by apply BitVec.eq_of_toNat_eq; simp; omega)
  have key : ∀ b : List BusAnswer, ∀ x : List Byte, x.length = digestSize v → Inv { s with
      bus := b, u := some x, t := some x, j := 1
      phase := if s.snap.iter = 1 then phaseWriteout else phaseUiter } := fun b x hx => {
    memory := h.memory
    phaseLegal := by dsimp only; split <;> simp
    errcodeClear := h.errcodeClear
    errcodeRaised := h.errcodeRaised
    busyClear := fun _ => h.busyClear (by simp [State.busy, hp])
    busyVariant := by simp [hv]
    waitingPhase := by simp [hw]
    idleAbsent := by unfold State.busy; dsimp only; split <;> simp
    earlyAbsent := by dsimp only; split <;> simp
    keyHeld := by dsimp only; split <;> simp [hk0]
    earlyZero := by dsimp only; split <;> simp
    counters := ⟨h.counters.1, by simpa using hiter⟩
    derivation := fun v' hv' => by
      obtain rfl : v = v' := by simpa [hv] using hv'
      exact {
        checked := fun _ => ⟨hch.1, hch.2, hch.3, hch.4⟩
        key := by simp [hk0]
        keyStates := fun _ => hst
        blockIndex := fun _ => hd.blockIndex (by simp [hp])
        values := fun _ => ⟨⟨_, rfl, hx⟩, ⟨_, rfl, hx⟩⟩
        iterating := by
          dsimp only
          split
          · simp
          · rename_i h1
            have : s.snap.iter.toNat ≠ 1 := fun hc => h1 (by apply BitVec.eq_of_toNat_eq; simpa using hc)
            simp; omega
        accumulating := by dsimp only; split <;> simp
        complete := by
          dsimp only
          split
          · simp_all
          · simp } }
  rcases withString_next he with ⟨-, he⟩ | ⟨-, -, ⟨-, he⟩ | ⟨k, l, -, rfl⟩ | ⟨l, -, rfl⟩⟩
  · simp only [Host.Outcome.next.injEq] at he
    subst he
    exact key s.bus _ (by simp [hopv])
  · simp only [Host.Outcome.next.injEq] at he
    subst he
    exact key s.bus.tail _ (by simp [hopv])
  · exact inv_abort (inv_memory_fields h s.mem h.memory s.bus.tail s.disturbed s.unspecified s.draws)
      hw _ (by simp)
  · exact inv_waiting
      (inv_memory_fields h s.mem h.memory s.bus.tail s.disturbed s.unspecified s.draws)
      (by simp [hp])

theorem inv_execUiter (h : Inv s) (hw : s.waiting = false) (hp : s.phase = phaseUiter)
    (he : execUiter s = .next s') : Inv s' := by
  obtain ⟨v, hv, he⟩ := withVariant_next he
  obtain ⟨ipad, hip, he⟩ := withValue_next he
  obtain ⟨opad, hop, he⟩ := withValue_next he
  obtain ⟨u, hu, he⟩ := withValue_next he
  have hd := h.derivation v hv
  have hch := hd.checked (by simp [hp])
  have hst := hd.keyStates (by simp [hp])
  have hk0 : s.k0 = none := by
    by_contra hc
    simp [h.keyHeld.mp hc] at hp
  have hopv : stateVariant opad = v := by
    obtain ⟨o, ho, hov⟩ := hst.2
    rw [hop] at ho
    simp_all
  have hj := hd.iterating hp
  have hjn : (BitVec.ofNat 32 (s.j.toNat + 1)).toNat = s.j.toNat + 1 := by
    have := s.snap.iter.isLt
    simp only [BitVec.toNat_ofNat]; omega
  simp only [Host.Outcome.next.injEq] at he
  subst he
  exact {
    memory := h.memory
    phaseLegal := by simp
    errcodeClear := h.errcodeClear
    errcodeRaised := h.errcodeRaised
    busyClear := fun _ => h.busyClear (by simp [State.busy, hp])
    busyVariant := by simp [hv]
    waitingPhase := by simp [hw]
    idleAbsent := by simp [State.busy]
    earlyAbsent := by simp
    keyHeld := by simp [hk0]
    earlyZero := by simp
    counters := ⟨h.counters.1, by dsimp only; omega⟩
    derivation := fun v' hv' => by
      obtain rfl : v = v' := by simpa [hv] using hv'
      exact {
        checked := fun _ => ⟨hch.1, hch.2, hch.3, hch.4⟩
        key := by simp [hk0]
        keyStates := fun _ => hst
        blockIndex := fun _ => hd.blockIndex (by simp [hp])
        values := fun _ => ⟨⟨_, rfl, by simp [hopv]⟩, (hd.values (by simp [hp])).2⟩
        iterating := by simp
        accumulating := fun _ => by dsimp only; omega
        complete := by simp } }

theorem inv_execXoracc (h : Inv s) (hw : s.waiting = false) (hp : s.phase = phaseXoracc)
    (he : execXoracc s = .next s') : Inv s' := by
  obtain ⟨t, ht, he⟩ := withValue_next he
  obtain ⟨u, hu, he⟩ := withValue_next he
  obtain ⟨v, hv, hd⟩ := h.running (by simp [hp])
  have hch := hd.checked (by simp [hp])
  have hk0 : s.k0 = none := by
    by_contra hc
    simp [h.keyHeld.mp hc] at hp
  have hj := hd.accumulating hp
  obtain ⟨⟨u', hu', hul⟩, ⟨t', ht', htl⟩⟩ := hd.values (by simp [hp])
  obtain rfl : u = u' := by simpa [hu] using hu'
  obtain rfl : t = t' := by simpa [ht] using ht'
  simp only [Host.Outcome.next.injEq] at he
  subst he
  exact {
    memory := h.memory
    phaseLegal := by dsimp only; split <;> simp
    errcodeClear := h.errcodeClear
    errcodeRaised := h.errcodeRaised
    busyClear := fun _ => h.busyClear (by simp [State.busy, hp])
    busyVariant := by simp [hv]
    waitingPhase := by simp [hw]
    idleAbsent := by unfold State.busy; dsimp only; split <;> simp
    earlyAbsent := by dsimp only; split <;> simp
    keyHeld := by dsimp only; split <;> simp [hk0]
    earlyZero := by dsimp only; split <;> simp
    counters := h.counters
    derivation := fun v' hv' => by
      obtain rfl : v = v' := by simpa [hv] using hv'
      exact {
        checked := fun _ => ⟨hch.1, hch.2, hch.3, hch.4⟩
        key := by simp [hk0]
        keyStates := fun _ => hd.keyStates (by simp [hp])
        blockIndex := fun _ => hd.blockIndex (by simp [hp])
        values := fun _ => ⟨⟨u, hu, hul⟩, ⟨_, rfl, by simp [htl, hul]⟩⟩
        iterating := by
          dsimp only
          split
          · simp
          · rename_i h1
            have : s.j.toNat ≠ s.snap.iter.toNat := fun hc => h1 (BitVec.eq_of_toNat_eq hc)
            intro; omega
        accumulating := by dsimp only; split <;> simp
        complete := by
          dsimp only
          split
          · intro; assumption
          · simp } }

/-- The end of a block keeps the invariant. -/
theorem inv_nextBlock (h : Inv s) (hw : s.waiting = false) (hp : s.phase = phaseWriteout) :
    Inv (nextBlock s) := by
  obtain ⟨v, hv, hd⟩ := h.running (by simp [hp])
  have hch := hd.checked (by simp [hp])
  have hi := hd.blockIndex (by simp [hp])
  have hst := hd.keyStates (by simp [hp])
  have hk0 : s.k0 = none := by
    by_contra hc
    simp [h.keyHeld.mp hc] at hp
  unfold nextBlock
  split
  · exact {
      memory := h.memory
      phaseLegal := by simp
      errcodeClear := h.errcodeClear
      errcodeRaised := h.errcodeRaised
      busyClear := fun _ => h.busyClear (by simp [State.busy, hp])
      busyVariant := by simp [hv]
      waitingPhase := by simp [hw]
      idleAbsent := by simp [State.busy]
      earlyAbsent := by simp
      keyHeld := by simp [hk0]
      earlyZero := by simp
      counters := h.counters
      derivation := fun v' _ => by constructor <;> simp [hk0] }
  · rename_i hne
    have hne' : s.i.toNat ≠ s.nblk.toNat := fun hc => hne (BitVec.eq_of_toNat_eq hc)
    have hin : (BitVec.ofNat 32 (s.i.toNat + 1)).toNat = s.i.toNat + 1 := by
      have := s.nblk.isLt
      simp only [BitVec.toNat_ofNat]; omega
    exact {
      memory := h.memory
      phaseLegal := by simp
      errcodeClear := h.errcodeClear
      errcodeRaised := h.errcodeRaised
      busyClear := fun _ => h.busyClear (by simp [State.busy, hp])
      busyVariant := by simp [hv]
      waitingPhase := by simp [hw]
      idleAbsent := by simp [State.busy]
      earlyAbsent := by simp
      keyHeld := by simp [hk0]
      earlyZero := by simp
      counters := ⟨by dsimp only; omega, h.counters.2⟩
      derivation := fun v' hv' => by
        obtain rfl : v = v' := by simpa [hv] using hv'
        exact {
          checked := fun _ => ⟨hch.1, hch.2, hch.3, hch.4⟩
          key := by simp [hk0]
          keyStates := fun _ => hst
          blockIndex := fun _ => by dsimp only; omega
          values := by simp
          iterating := by simp
          accumulating := by simp
          complete := by simp } }

theorem inv_execWriteout (h : Inv s) (hw : s.waiting = false) (hp : s.phase = phaseWriteout)
    (he : execWriteout s = .next s') : Inv s' := by
  obtain ⟨v, hv, he⟩ := withVariant_next he
  obtain ⟨t, ht, he⟩ := withValue_next he
  split at he
  · simp at he
  dsimp only at he
  have hout : ∃ l n, (outputOf (blockRange v s) (t.take (blockRange v s).len) s).2 =
      { s with unspecified := l, draws := n } := by
    cases hr : raced (blockRange v s) s
    · exact ⟨s.unspecified, s.draws, by rw [outputOf_clean hr]⟩
    · exact ⟨_, _, by rw [outputOf_raced hr]⟩
  have hlen : (outputOf (blockRange v s) (t.take (blockRange v s).len) s).1.length ≤
      (blockRange v s).len := by simp
  obtain ⟨l, n, hout⟩ := hout
  generalize (outputOf (blockRange v s) (t.take (blockRange v s).len) s).1 = x at he hlen
  rw [hout] at he
  obtain ⟨hfit, hc⟩ := withWrite_next he
  rcases hc with ⟨-, he⟩ | ⟨k, m, -, rfl⟩ | ⟨m, -, rfl⟩
  · simp only [Host.Outcome.next.injEq] at he
    subst he
    exact inv_nextBlock (inv_memory_fields h _
      (Memory.wf_writeBytes x s.mem _ (by omega) h.memory) s.bus.tail s.disturbed l n) hw hp
  · exact inv_abort (inv_memory_fields h _
      (Memory.wf_writeLanded x s.mem _ m (by omega) h.memory) s.bus.tail s.disturbed l n)
      hw _ (by simp)
  · exact inv_waiting (inv_memory_fields h _
      (Memory.wf_writeLanded x s.mem _ m (by omega) h.memory) s.bus.tail s.disturbed l n)
      (by simp [hp])

theorem inv_execFinish (h : Inv s) (hw : s.waiting = false) (hp : s.phase = phaseFinish)
    (he : execFinish s = .next s') : Inv s' := by
  simp only [execFinish, Host.Outcome.next.injEq] at he
  subst he
  have hk0 : s.k0 = none := by
    by_contra hc
    simp [h.keyHeld.mp hc] at hp
  have hb := h.busyClear (by simp [State.busy, hp])
  exact inv_of_idle rfl h.memory ⟨hk0, rfl, rfl, rfl, rfl⟩ h.errcodeClear h.errcodeRaised hw h.counters

end Sys2Proof.Machine
end

