-- ==== Sys2Proof/Laws/PerInstr.lean ====
section
/-! SUPPORT. What holds of every instruction as syntax, one lemma a constructor. Family `Encoded`: an
instruction's encoding is well formed and in the format the table issues it in (R62, R63, R65). -/

namespace Sys2Proof.Laws.Encoded

/-- The encoding of an instruction is well formed and has the instruction's format. -/
def Statement (i : Instr) : Prop := (encode i).wellFormed = true ∧ (encode i).format = i.format

theorem nop : Statement .nop := ⟨rfl, rfl⟩
theorem deriveSha1 : Statement .deriveSha1 := ⟨rfl, rfl⟩
theorem deriveSha256 : Statement .deriveSha256 := ⟨rfl, rfl⟩
theorem deriveSha512 : Statement .deriveSha512 := ⟨rfl, rfl⟩
theorem idle : Statement .idle := ⟨rfl, rfl⟩
theorem check : Statement .check := ⟨rfl, rfl⟩
theorem keyload : Statement .keyload := ⟨rfl, rfl⟩
theorem precomp : Statement .precomp := ⟨rfl, rfl⟩
theorem u1 : Statement .u1 := ⟨rfl, rfl⟩
theorem uiter : Statement .uiter := ⟨rfl, rfl⟩
theorem xoracc : Statement .xoracc := ⟨rfl, rfl⟩
theorem writeout : Statement .writeout := ⟨rfl, rfl⟩
theorem finish : Statement .finish := ⟨rfl, rfl⟩

end Sys2Proof.Laws.Encoded
end

