-- ==== Sys2Proof/Tests/Slice0.lean ====
section
/-! SUPPORT. The model's own tests. Every expected value stands in spec/95_test_vectors.md (sections
named with each group) or is written out from the tables of R22, R25, R63 and R65. After them, for every
obligation with hypotheses, a concrete state that meets them all together. -/

namespace Sys2Proof.Tests

set_option Elab.async false

open Sys2Proof.Machine

/-! ## Small helpers -/

/-- One field of the state a result answers. -/
def after {α : Type} (f : State → α) : Result → Option α
  | .next s => some (f s)
  | .fault _ => none
  | .refused _ => none

/-- The `n` bytes written as one hexadecimal number, first byte on the left (R14). -/
def bytes (n : Nat) : Nat → List Byte
  | 0 => []
  | k + 1 => BitVec.ofNat 8 (n / 256 ^ k) :: bytes n k

/-- "password" -/
def password : List Byte := bytes 0x70617373776f7264 8

/-- "salt" -/
def salt : List Byte := bytes 0x73616c74 4

/-- The default of section 2.10. -/
def job : Params := ⟨0x1000, 8, 0x1010, 4, 1, 0x2000, 20⟩

/-- A SHA-1 derivation of `p` about to perform the micro-operation `c`, over the memory of program P1. -/
def atPhase (c : BitVec 4) (p : Params) : State :=
  { State.reset with
    mem := memAt [(0x1000, password), (0x1010, salt)]
    phase := c, var := some .sha1, snap := p, regs := p }

/-- Section 2.4, V-PRE-1. -/
def ipad1 : HashState := .sha1 0x084eb10f7f3bc5b85b6b0b414ed50043ffe71f45#160
def opad1 : HashState := .sha1 0xf0bb8fe5b5a3bda69e9ead99ab1f903a885e1e9f#160

/-- Section 2.6, T-1. -/
def u1Bytes : List Byte := bytes 0x0c60c80f961f0e71f3a9b524af6012062fe037a6 20
def u2Bytes : List Byte := bytes 0xe60cc942513261fd3eb76c0e617d53f6f73ebef1 20
def t2Bytes : List Byte := bytes 0xea6c014dc72d6f8ccd1ed92ace1d41f0d8de8957 20

/-- The same derivation in its block loop: block 1 of `n`, iteration `j`. -/
def inLoop (c : BitVec 4) (p : Params) (n j : Word) (u t : List Byte) : State :=
  { atPhase c p with
    nblk := n, i := 1, j := j
    ipadState := some ipad1, opadState := some opad1, u := some u, t := some t }

/-! ## Decoding: the words of R63 and the codes of R65, bit by bit -/

theorem test_decode_nop : decodeTableWord 32 0b00000000000000000000000000000000 = some .nop := rfl
theorem test_decode_deriveSha1 :
    decodeTableWord 32 0b00000000000000000000000000000001 = some .deriveSha1 := rfl
theorem test_decode_deriveSha256 :
    decodeTableWord 32 0b00000000000000000000000000000010 = some .deriveSha256 := rfl
theorem test_decode_deriveSha512 :
    decodeTableWord 32 0b00000000000000000000000000000011 = some .deriveSha512 := rfl
theorem test_decode_idle : decodeTableWord 8 0b0000 = some .idle := rfl
theorem test_decode_check : decodeTableWord 8 0b0001 = some .check := rfl
theorem test_decode_keyload : decodeTableWord 8 0b0010 = some .keyload := rfl
theorem test_decode_precomp : decodeTableWord 8 0b0011 = some .precomp := rfl
theorem test_decode_u1 : decodeTableWord 8 0b0100 = some .u1 := rfl
theorem test_decode_uiter : decodeTableWord 8 0b0101 = some .uiter := rfl
theorem test_decode_xoracc : decodeTableWord 8 0b0110 = some .xoracc := rfl
theorem test_decode_writeout : decodeTableWord 8 0b0111 = some .writeout := rfl
theorem test_decode_finish : decodeTableWord 8 0b1000 = some .finish := rfl

/-- A reserved OP, a reserved bit and a code that is never held are rejected. -/
theorem test_decode_rejects :
    decodeTableWord 32 0x4 = none ∧ decodeTableWord 32 0x11 = none ∧
    decodeTableWord 32 0x80000001 = none ∧ decodeTableWord 8 0x9 = none := ⟨rfl, rfl, rfl, rfl⟩

/-! ## Well-formedness: an ill-formed term for each check (R63, R65) -/

theorem test_rsv_refused :
    (Code.cmd 0x00000011#32).rsvIsZero = false ∧ (Code.cmd 0x00000011#32).wellFormed = false :=
  ⟨rfl, rfl⟩
theorem test_op_refused :
    (Code.cmd 0x00000004#32).opIsDefined = false ∧ (Code.cmd 0x00000004#32).wellFormed = false :=
  ⟨rfl, rfl⟩
theorem test_uop_refused :
    (Code.uop 0x9#4).uopIsDefined = false ∧ (Code.uop 0x9#4).wellFormed = false := ⟨rfl, rfl⟩

/-! ## Commands (section 2.11) -/

/-- STATUS after a word is written to CMD. -/
def statusAfterCmd (w : Word) (s : State) : Option Word := after statusWord (presentCommand w s)

/-- IDLE with STATUS 0x0000100A. -/
def doneWithOverrun : State := { State.reset with done := true, ovr := true, var := some .sha1 }

theorem test_nop_keeps_status :
    statusAfterCmd 0 { State.reset with done := true, var := some .sha1 } = some 0x00001002 := by decide
theorem test_derive_sha1_clears_done_keeps_ovr :
    statusAfterCmd 1 doneWithOverrun = some 0x00001109 := by decide
theorem test_derive_sha256 : statusAfterCmd 2 State.reset = some 0x00002101 := by decide
theorem test_derive_sha512 : statusAfterCmd 3 State.reset = some 0x00003101 := by decide
theorem test_words_while_busy_are_dropped :
    statusAfterCmd 2 (atPhase 1 job) = some 0x00001109 ∧
    statusAfterCmd 4 (atPhase 1 job) = some 0x00001109 := by decide
theorem test_illegal_word_overwrites_the_earlier_error :
    statusAfterCmd 7 { State.reset with
      done := true, err := true, errcode := .invalidIterationCount, var := some .sha1 } =
      some 0x00000016 := by decide

/-! ## CHECK (section 2.10) -/

/-- STATUS and `st.nblk` after CHECK. -/
def checkOf (p : Params) : Option (Word × Word) :=
  after (fun s => (statusWord s, s.nblk)) (exec .check (atPhase 1 p))

/-- K1, K5, K9, K11, K12, K18 and K19. -/
theorem test_check_passes :
    checkOf job = some (0x00001201, 1) ∧
    checkOf { job with pwAddr := 0xFFFFFFF8 } = some (0x00001201, 1) ∧
    checkOf { job with pwAddr := 0xFFFFFFFF, pwLen := 0 } = some (0x00001201, 1) ∧
    checkOf { job with outAddr := 0x1014 } = some (0x00001201, 1) ∧
    checkOf { job with outAddr := 0x100C, outLen := 4 } = some (0x00001201, 1) ∧
    checkOf { job with outAddr := 0x1010, outLen := 0 } = some (0x00001801, 0) ∧
    checkOf { job with outAddr := 0, outLen := 0xFFFFFFFF, pwLen := 0, saltLen := 0 } =
      some (0x00001201, 214748365) := by decide

/-- K10, K13, K14, K16 and K17. -/
theorem test_check_errors :
    checkOf { job with outAddr := 0x1012 } = some (0x00001046, 0) ∧
    checkOf { job with outAddr := 0x100D, outLen := 4 } = some (0x00001046, 0) ∧
    checkOf { job with outAddr := 0x0FF0 } = some (0x00001046, 0) ∧
    checkOf { job with iter := 0, pwAddr := 0xFFFFFFF9 } = some (0x00001026, 0) ∧
    checkOf { job with pwAddr := 0xFFFFFFF9, outAddr := 0x1012 } = some (0x00001036, 0) := by decide

/-! ## KEYLOAD and PRECOMP (sections 2.3 and 2.4) -/

/-- A password that fits a block is zero-padded; 65 bytes, one more than a block, are hashed. -/
theorem test_keyload :
    after (fun s => s.k0) (exec .keyload (atPhase 2 job)) =
      some (some (password ++ List.replicate 56 0)) ∧
    after (fun s => s.k0) (exec .keyload { atPhase 2 { job with pwLen := 65 } with
      mem := memAt [(0x1000, List.replicate 65 0x61#8)] }) =
      some (some (bytes 0x11655326c708d70319be2610e8a57d9a5b959d3b 20 ++ List.replicate 44 0)) := by
  decide +kernel

/-- V-PRE-1. -/
theorem test_precomp_sha1 :
    after (fun s => (s.ipadState, s.opadState, s.k0, s.i))
      (exec .precomp { atPhase 3 job with k0 := some (password ++ List.replicate 56 0) }) =
      some (some ipad1, some opad1, none, 1) := by decide +kernel

/-- V-PRE-2, SHA-256. -/
theorem test_precomp_sha256 :
    after (fun s => s.ipadState)
      (exec .precomp { atPhase 3 job with var := some .sha256, k0 := some (List.replicate 64 0) }) =
      some (some (.sha256
        0xf454dead9725214f90daf2a0df1228ea64e5750fa3924181824a932bf8e04e32#256)) := by
  decide +kernel

/-! ## The block loop (sections 2.5 to 2.7) -/

/-- T-1, U(1). -/
theorem test_u1_sha1 :
    after (fun s => (s.u, s.t, s.j, s.phase))
      (exec .u1 (inLoop 4 { job with iter := 3 } 1 0 [] [])) =
      some (some u1Bytes, some u1Bytes, 1, 0x5#4) := by decide +kernel

/-- V-HMAC-3, SHA-512 with V-PRE-4: U(1) of block 2 of V-KAT-4. -/
theorem test_u1_sha512 :
    after (fun s => s.u) (exec .u1 { State.reset with
      mem := memAt [(0x1100,
        bytes 0x73616c7453414c5473616c7453414c5473616c7453414c5473616c7453414c5473616c74 36)]
      phase := 4, var := some .sha512, snap := ⟨0x1000, 24, 0x1100, 36, 1, 0x3000, 72⟩
      nblk := 2, i := 2
      ipadState := some (.sha512 0xcb4769e56fd4a474e4c835756b8b89acc11241923229ae4164299274204effbf8b22fefb8c3d7213c3940f07f06ec2531ea1c4e37bedfe89bf7f3dbc308222d2#512)
      opadState := some (.sha512 0xc129eb527eaa353e4058bdb7a407b159d997feb05adc67064ec42ea21fc561a56ffe4fa757ff34b86cf1daa64c3ebdbd15b58a35ae74ab01f13b86f1f5aa93db#512) }) =
      some (some (bytes 0xc35ee68fd52c6936ef9a6b5f066be0bd8509c6694e228d9860b025450c6901b7549a6472457ed2a9e90cdfcef3d948deedf9d44e9b67d866d012f5ff1fa0c4cc 64)) := by
  decide +kernel

/-- T-1, U(2). -/
theorem test_uiter_sha1 :
    after (fun s => (s.u, s.t, s.j)) (exec .uiter (inLoop 5 { job with iter := 2 } 1 1 u1Bytes u1Bytes)) =
      some (some u2Bytes, some u1Bytes, 2) := by decide +kernel

/-- T-1, T after j = 2. -/
theorem test_xoracc :
    after (fun s => (s.t, s.u, s.phase))
      (exec .xoracc (inLoop 6 { job with iter := 3 } 1 2 u2Bytes u1Bytes)) =
      some (some t2Bytes, some u2Bytes, 0x5#4) := by decide +kernel

/-- Section 2.7, L = 25: the second block writes 5 bytes at `a + 20`, and nothing after them. -/
theorem test_writeout_truncates :
    after (fun s => (s.mem.readBytes 0x2012 10, s.i, s.phase))
      (exec .writeout { inLoop 7 { job with outLen := 25 } 2 1 [] [] with
        i := 2, t := some (bytes 0xe0f0eb94fe8fc46bdc637164ac2e7a8e3f9d2e83 20) }) =
      some ([0, 0, 0xe0, 0xf0, 0xeb, 0x94, 0xfe, 0, 0, 0], 2, 0x8#4) := by decide +kernel

/-- Section 2.16, program P6: the failed write of block 2. -/
theorem test_writeout_bus_error :
    after (fun s => (statusWord s, s.errAddr, s.i, s.j))
      (exec .writeout { inLoop 7 { job with iter := 2, outLen := 25 } 2 2 [] t2Bytes with
        i := 2, bus := [.busErr 0 0] }) = some (0x00001066, 0x2014, 2, 2) := by decide +kernel

/-- Section 2.16: the password read answered `BusErr(0x1003)`. -/
theorem test_keyload_bus_error :
    after (fun s => (statusWord s, s.errAddr, s.i, s.j))
      (exec .keyload { atPhase 2 job with bus := [.busErr 3 0] }) =
      some (0x00001066, 0x1003, 0, 0) := by decide +kernel

/-- R91's example. -/
theorem test_finish :
    after statusWord (exec .finish (inLoop 8 job 1 1 u1Bytes u1Bytes)) = some 0x00001002 := by
  decide +kernel

/-- R98: no step of the engine's own in IDLE. -/
theorem test_idle : after statusWord (exec .idle doneWithOverrun) = some 0x0000100A := by decide

/-! ## Padding and BE32 (sections 2.1 and 2.2) -/

theorem test_be32 :
    be32 0x01020304 = [1, 2, 3, 4] ∧ be32 214748365 = [0x0c, 0xcc, 0xcc, 0xcd] := by decide
theorem test_pad_one_block_and_two :
    pad .sha1 (bytes 0x73616c7400000001 8) 72 =
      bytes 0x73616c740000000180 9 ++ List.replicate 47 0 ++ bytes 0x240 8 ∧
    pad .sha512 (List.replicate 112 0) 240 =
      List.replicate 112 0 ++ [0x80] ++ List.replicate 127 0 ++ bytes 0x780 16 := by decide +kernel

/-! ## Registers (section 2.12), interrupt and reset (sections 2.13 and 2.14) -/

/-- The host's access at `REG_BASE = 0`. -/
def access (off size : Nat) (write : Bool) (w : Word) (s : State) : Result :=
  hostAccess ⟨off, size, write, w⟩ s

theorem test_read_misaligned :
    after (fun s => s.reply) (access 0x02 4 false 0 State.reset) = some (some ⟨some 0, .err⟩) := by
  decide
theorem test_write_two_bytes :
    after (fun s => (s.reply, s.regs.pwAddr)) (access 0x10 2 true 5 State.reset) =
      some (some ⟨some 0, .err⟩, 0) := by decide
theorem test_read_id :
    after (fun s => s.reply) (access 0x00 4 false 0 State.reset) =
      some (some ⟨some 0x50424B32, .ok⟩) := by decide
theorem test_ctrl_reserved_bits :
    after ctrlWord (access 0x04 4 true 0xFFFFFFFD State.reset) = some 1 := by decide
theorem test_ctrl_srst_wins :
    after (fun s => (statusWord s, ctrlWord s, s.regs, irq s))
      (access 0x04 4 true 3 { inLoop 6 { job with iter := 2, outLen := 25 } 2 2 [] [] with ie := true }) =
      some (0, 0, Params.zero, false) := by decide
theorem test_status_w1c :
    after statusWord (access 0x08 4 true 0xFFFFFFFF { State.reset with
      done := true, err := true, ovr := true, errcode := .busError, var := some .sha1 }) =
      some 0x00001000 := by decide

/-- A derivation that has ended, before the host has read STATUS. -/
def ended : State := { State.reset with done := true, var := some .sha1, snap := job, unseen := [job] }

/-- R126: a store at the last output byte and the one after it, before the host has seen DONE = 1. -/
theorem test_store_before_done_is_seen :
    after (fun s => (recorded s.unspecified 0x2013, recorded s.unspecified 0x2014))
      (agentStore 0x2013 [1, 2] ended) = some (true, false) := by decide

/-- R126, R129: a read of STATUS that shows DONE = 1 ends the ownership; one that gets ERR does not, nor
one that shows DONE = 0. -/
theorem test_status_read_ends_ownership :
    after (fun s => s.unseen) (access 0x08 4 false 0 ended) = some [] ∧
    after (fun s => s.unseen) (access 0x08 1 false 0 ended) = some [job] ∧
    after (fun s => s.unseen) (access 0x08 4 false 0 { ended with done := false }) = some [job] := by
  decide

/-! ## Witnesses: each obligation's hypotheses are met together -/

theorem witness_EngineTurn :
    (∃ s : State, s.pending = [] ∧ s.waiting = true) ∧
    (∃ s : State, s.pending = [.engine] ∧ s.waiting = false ∧ decodeUop s.phase = .ok .finish) ∧
    (∃ s : State, s.pending = [] ∧ s.waiting = false ∧ 9 ≤ s.phase.toNat) :=
  ⟨⟨{ atPhase 2 job with waiting := true }, rfl, rfl⟩,
   ⟨{ atPhase 8 job with pending := [.engine] }, rfl, rfl, rfl⟩, ⟨atPhase 9 job, rfl, rfl, by decide⟩⟩

theorem witness_CommandWrite :
    ∃ s : State, s.pending = [.port ⟨s.platform.regBase + 0x0C, 4, true, 3⟩] ∧
      decodeCmd 3 = .ok .deriveSha512 :=
  ⟨{ State.reset with pending := [.port ⟨0x0C, 4, true, 3⟩] }, rfl, rfl⟩

theorem witness_PlacedWord :
    decodeTableWord 32 3 = some .deriveSha512 ∧ decodeTableWord 8 8 = some .finish := ⟨rfl, rfl⟩

theorem witness_DeriveIsAccepted :
    (Instr.deriveSha512, Variant.sha512) ∈ [(Instr.deriveSha1, Variant.sha1),
      (.deriveSha256, .sha256), (.deriveSha512, .sha512)] ∧ State.reset.phase = phaseIdle := by decide

theorem witness_CommandWhileBusy : (atPhase 8 job).busy = true ∧ (atPhase 1 job).busy = true := ⟨rfl, rfl⟩

theorem witness_IllegalCommand : State.reset.busy = false ∧ 3 < (4#32).toNat := by decide

theorem witness_DeriveScript :
    ∃ s : State, s.busy = false ∧ s.pending = deriveScript s.platform.regBase .sha512 job :=
  ⟨{ State.reset with pending := deriveScript 0 .sha512 job }, rfl, rfl⟩

/-- What the three range hypotheses of the CHECK obligations look like as computations. -/
theorem no_common_byte (r q : Range) (h : r.overlaps q = false) (a : Nat) :
    ¬(r.contains a = true ∧ q.contains a = true) := by
  simp [Range.overlaps, Range.contains] at *
  omega

/-- An output that ends at the top of memory, with no empty block (R86: `a + l = 2^32` is legal). -/
def topJob : Params := { job with outAddr := 0xFFFFFFE7, outLen := 25 }

theorem witness_CheckPasses :
    ∃ (s : State) (n : Nat), s.var = some .sha1 ∧ s.snap.iter ≠ 0 ∧
      s.snap.outLen.toNat ≤ n * digestSize .sha1 ∧
      n * digestSize .sha1 < s.snap.outLen.toNat + digestSize .sha1 ∧
      (∀ r ∈ [s.snap.pwRange, s.snap.saltRange, s.snap.outRange],
        1 ≤ r.len → r.start + r.len ≤ 2 ^ 32) ∧
      (∀ r ∈ [s.snap.pwRange, s.snap.saltRange], ∀ a,
        ¬(s.snap.outRange.contains a = true ∧ r.contains a = true)) ∧
      s.snap.outRange.start + s.snap.outRange.len = 2 ^ 32 := by
  refine ⟨atPhase 1 topJob, 2, rfl, by decide, by decide, by decide, by decide, ?_, by decide⟩
  intro r hr a
  apply no_common_byte
  revert hr
  simp only [List.mem_cons, List.not_mem_nil, or_false]
  rintro (rfl | rfl) <;> decide

theorem witness_CheckRejectsZero : (atPhase 1 { job with iter := 0 }).snap.iter = 0 := rfl

theorem witness_CheckRejectsWrapping :
    ∃ s : State, s.var = some .sha1 ∧ s.snap.iter ≠ 0 ∧
      ∃ r ∈ [s.snap.pwRange, s.snap.saltRange, s.snap.outRange], 1 ≤ r.len ∧ 2 ^ 32 < r.start + r.len :=
  ⟨atPhase 1 { job with saltAddr := 0xFFFFFFFF, saltLen := 2 }, rfl, by decide, ⟨0xFFFFFFFF, 2⟩,
    by decide, by decide, by decide⟩

theorem witness_CheckRejectsOverlap :
    ∃ s : State, s.var = some .sha1 ∧ s.snap.iter ≠ 0 ∧
      (∀ r ∈ [s.snap.pwRange, s.snap.saltRange, s.snap.outRange],
        1 ≤ r.len → r.start + r.len ≤ 2 ^ 32) ∧
      (∃ r ∈ [s.snap.pwRange, s.snap.saltRange], ∃ a,
        s.snap.outRange.contains a = true ∧ r.contains a = true) :=
  ⟨atPhase 1 { job with outAddr := 0x100D, outLen := 4 }, rfl, by decide, by decide, ⟨0x1010, 4⟩,
    by decide, 0x1010, by decide, by decide⟩

theorem witness_BlockOverflow :
    ∃ s t : State, exec .check s = .next t ∧ s.errcode ≠ .blockOverflow :=
  ⟨atPhase 1 job, _, rfl, by decide⟩

theorem witness_Keyload :
    (∃ s : State, s.var = some .sha1 ∧ s.snap.pwLen = 0) ∧
    (∀ b : BusAnswer, ∃ s : State, s.var = some .sha1 ∧ s.snap.pwLen ≠ 0 ∧
      s.snap.pwAddr.toNat + s.snap.pwLen.toNat = 2 ^ 32 ∧ s.bus.headD .ok = b) :=
  ⟨⟨atPhase 2 { job with pwLen := 0 }, rfl, rfl⟩,
   fun b => ⟨{ atPhase 2 { job with pwAddr := 0xFFFFFFF8 } with bus := [b] }, rfl,
    show (8 : Word) ≠ 0 by decide,
    show (0xFFFFFFF8 : Word).toNat + (8 : Word).toNat = 2 ^ 32 by decide, rfl⟩⟩

theorem witness_Precomp :
    ∃ (s : State) (k : List Byte), s.var = some .sha1 ∧ s.k0 = some k ∧
      k.length = blockSize .sha1 :=
  ⟨{ atPhase 3 job with k0 := some (List.replicate 64 0) }, _, rfl, rfl, by decide⟩

theorem witness_BlockLoopOnlyReads :
    (∃ s t : State, exec .xoracc s = .next t ∧ t.ipadState = s.ipadState) ∧
    (∃ s t : State, exec .writeout s = .next t ∧ t.ipadState = none ∧ s.ipadState ≠ none) :=
  ⟨⟨inLoop 6 job 1 1 [] [], _, rfl, rfl⟩,
   ⟨{ inLoop 7 job 1 1 [] u1Bytes with bus := [.busErr 0 0] }, _, rfl, rfl, by decide⟩⟩

theorem witness_U1 :
    (∃ s : State, s.var = some .sha1 ∧ s.ipadState = some ipad1 ∧ s.opadState = some opad1 ∧
      s.snap.saltLen = 0) ∧
    (∀ b : BusAnswer, ∃ s : State, s.var = some .sha1 ∧ s.ipadState = some ipad1 ∧
      s.opadState = some opad1 ∧ s.snap.saltLen ≠ 0 ∧
      s.snap.saltAddr.toNat + s.snap.saltLen.toNat = 2 ^ 32 ∧ s.bus.headD .ok = b) :=
  ⟨⟨inLoop 4 { job with saltLen := 0 } 1 0 [] [], rfl, rfl, rfl, rfl⟩,
   fun b => ⟨{ inLoop 4 { job with saltAddr := 0xFFFFFFFC } 1 0 [] [] with bus := [b] }, rfl, rfl,
    rfl, show (4 : Word) ≠ 0 by decide,
    show (0xFFFFFFFC : Word).toNat + (4 : Word).toNat = 2 ^ 32 by decide, rfl⟩⟩

theorem witness_Uiter :
    ∃ s : State, s.var = some .sha1 ∧ s.ipadState = some ipad1 ∧ s.opadState = some opad1 ∧
      s.u = some u1Bytes :=
  ⟨inLoop 5 job 1 1 u1Bytes u1Bytes, rfl, rfl, rfl, rfl⟩

theorem witness_Xoracc :
    ∃ s : State, s.t = some u1Bytes ∧ s.u = some u2Bytes ∧ u1Bytes.length = u2Bytes.length :=
  ⟨inLoop 6 job 1 2 u2Bytes u1Bytes, rfl, rfl, by decide⟩

/-- The second, one-byte block of a 21-byte output that ends at the top of memory. -/
def lastByte : State :=
  { inLoop 7 { job with outAddr := 0xFFFFFFEB, outLen := 21 } 2 1 u1Bytes u1Bytes with i := 2 }

theorem witness_Writeout :
    ∃ (s : State) (off k : Nat), s.var = some .sha1 ∧ s.t = some u1Bytes ∧ 1 ≤ s.i.toNat ∧
      off = (s.i.toNat - 1) * digestSize .sha1 ∧ off < s.snap.outLen.toNat ∧
      k = min (digestSize .sha1) (s.snap.outLen.toNat - off) ∧
      s.snap.outAddr.toNat + off + k = 2 ^ 32 ∧ s.bus.headD .ok = .ok ∧ s.disturbed = false ∧
      (∀ a, s.snap.outAddr.toNat + off ≤ a → a < s.snap.outAddr.toNat + off + k →
        recorded s.unspecified a = false) :=
  ⟨lastByte, 20, 1, rfl, rfl, by decide, by decide, by decide, by decide, by decide, rfl, rfl,
    fun _ _ _ => rfl⟩

/-- However the memory answers, at the top of memory, with and without a race. -/
theorem witness_WriteoutFrame :
    (∀ b : BusAnswer, ∃ s : State, s.var = some .sha1 ∧ s.t = some u1Bytes ∧
      u1Bytes.length = digestSize .sha1 ∧ Memory.wf s.mem = true ∧ 1 ≤ s.i.toNat ∧
      blockOffset .sha1 s.i < s.snap.outLen.toNat ∧
      (blockRange .sha1 s).start + (blockRange .sha1 s).len ≤ 2 ^ 32 ∧
      raced (blockRange .sha1 s) s = false ∧ s.bus.headD .ok = b) ∧
    (∃ s t : State, exec .writeout s = .next t ∧ t.waiting = true) :=
  ⟨fun b => ⟨{ lastByte with bus := [b] }, rfl, rfl, by decide,
    show Memory.wf lastByte.mem = true by decide, show 1 ≤ lastByte.i.toNat by decide,
    show blockOffset .sha1 lastByte.i < lastByte.snap.outLen.toNat by decide,
    show (blockRange .sha1 lastByte).start + (blockRange .sha1 lastByte).len ≤ 2 ^ 32 by decide,
    show raced (blockRange .sha1 lastByte) lastByte = false by decide, rfl⟩,
   ⟨{ lastByte with bus := [.never 1] }, _, rfl, rfl⟩⟩

/-- What the obligation asks of a raced state, and the two ways to meet it: an input was disturbed, or
one byte of the block, here the first of twenty, was written and no other. -/
theorem witness_RacedWriteout :
    (∃ s : State, s.var = some .sha1 ∧ s.t = some u1Bytes ∧
      u1Bytes.length = digestSize .sha1 ∧ Memory.wf s.mem = true ∧ 1 ≤ s.i.toNat ∧
      blockOffset .sha1 s.i < s.snap.outLen.toNat ∧
      (blockRange .sha1 s).start + (blockRange .sha1 s).len ≤ 2 ^ 32 ∧ nextAnswer s = .ok ∧
      raced (blockRange .sha1 s) s = true ∧ s.disturbed = true) ∧
    (∃ s : State, s.var = some .sha1 ∧ s.t = some u1Bytes ∧
      u1Bytes.length = digestSize .sha1 ∧ Memory.wf s.mem = true ∧ 1 ≤ s.i.toNat ∧
      blockOffset .sha1 s.i < s.snap.outLen.toNat ∧
      (blockRange .sha1 s).start + (blockRange .sha1 s).len ≤ 2 ^ 32 ∧ nextAnswer s = .ok ∧
      raced (blockRange .sha1 s) s = true ∧ s.disturbed = false ∧
      recorded s.unspecified (blockRange .sha1 s).start = true ∧
      recorded s.unspecified ((blockRange .sha1 s).start + 19) = false ∧
      19 < (blockRange .sha1 s).len) :=
  ⟨⟨{ lastByte with disturbed := true }, rfl, rfl, by decide, by decide, by decide, by decide,
    by decide, rfl, by decide, rfl⟩,
   ⟨{ inLoop 7 job 1 1 u1Bytes u1Bytes with unspecified := [⟨0x2000, 1⟩] }, rfl, rfl, by decide,
    by decide, by decide, by decide, by decide, rfl, by decide, rfl, by decide, by decide, by decide⟩⟩

theorem witness_Successors :
    ∃ s t : State, Instr.xoracc.format = .uop ∧ encode .xoracc = .uop s.phase ∧ s.waiting = false ∧
      exec .xoracc s = .next t :=
  ⟨inLoop 6 job 1 2 u2Bytes u1Bytes, _, rfl, rfl, rfl, rfl⟩

theorem witness_ReadBusError :
    ∃ s : State, s.var = some .sha1 ∧ s.ipadState = some ipad1 ∧ s.opadState = some opad1 ∧
      s.snap.pwLen ≠ 0 ∧ s.snap.pwAddr.toNat + s.snap.pwLen.toNat ≤ 2 ^ 32 ∧
      s.snap.saltLen ≠ 0 ∧ s.snap.saltAddr.toNat + s.snap.saltLen.toNat ≤ 2 ^ 32 ∧
      s.bus.headD .ok = .busErr 3 0 :=
  ⟨{ inLoop 4 job 1 0 [] [] with bus := [.busErr 3 0] }, rfl, rfl, rfl, by decide, by decide,
    by decide, by decide, rfl⟩

theorem witness_WriteBusError :
    ∃ s : State, s.var = some .sha1 ∧ s.t = some u1Bytes ∧
      u1Bytes.length = digestSize .sha1 ∧ Memory.wf s.mem = true ∧ 1 ≤ s.i.toNat ∧
      blockOffset .sha1 s.i < s.snap.outLen.toNat ∧
      (blockRange .sha1 s).start + (blockRange .sha1 s).len ≤ 2 ^ 32 ∧
      s.bus.headD .ok = .busErr 0 1 :=
  ⟨{ lastByte with bus := [.busErr 0 1] }, rfl, rfl, by decide, by decide, by decide, by decide,
    by decide, rfl⟩

theorem witness_AbsentValues :
    (∃ s : State, s.var = none ∧ s.snap.iter ≠ 0) ∧
    (∃ s : State, s.var ≠ none ∧ s.k0 = none ∧ s.ipadState = none ∧ s.t = none) ∧
    (∃ s : State, s.var ≠ none ∧ s.ipadState ≠ none ∧ s.opadState = none) ∧
    (∃ s : State, s.var ≠ none ∧ s.ipadState ≠ none ∧ s.opadState ≠ none ∧ s.t ≠ none ∧ s.u = none) :=
  ⟨⟨{ atPhase 1 job with var := none }, rfl, by decide⟩,
   ⟨atPhase 3 job, by decide, rfl, rfl, rfl⟩,
   ⟨{ inLoop 5 job 1 1 [] [] with opadState := none }, by decide, by decide, rfl⟩,
   ⟨{ inLoop 5 job 1 1 [] [] with u := none }, by decide, by decide, by decide, by decide, rfl⟩⟩

theorem witness_OutputIsUnspecified :
    (atPhase 1 job).snap.outRange.contains 0x2013 = true ∧ (atPhase 1 job).busy = true := by decide

theorem witness_OnlyAlignedWordAccesses :
    (0x3E < 0x40 ∧ 0x3E % 4 ≠ 0) ∧ (0x3C < 0x40 ∧ 2 ≠ 4) ∧ 0x3C % 4 = 0 := by decide

theorem witness_AlignedRead :
    (0x3C, 0#32) ∈ [(0x00, 0x50424B32#32), (0x3C, 0#32)] ∧
    (0x2C, 7#32) ∈ [(0x2C, ({ State.reset with i := 7 } : State).i)] ∧
    (0x04, 1#32) ∈ [(0x04, if ({ State.reset with ie := true } : State).ie then 1#32 else 0#32)] := by
  decide

theorem witness_ParameterWrite :
    (0x28, { job with outLen := 5 }) ∈ [(0x24, { job with outAddr := 5 }), (0x28, { job with outLen := 5 })] := by
  decide

theorem witness_ReadOnlyWrites : 0x3C ∈ [0x00, 0x2C, 0x30, 0x34, 0x38, 0x3C] := by decide

theorem witness_HostAccess :
    ∃ (s t : State) (a : Access), hostAccess a s = .next t ∧
      ¬(a.write = true ∧ a.addr = s.platform.regBase + 0x0C) ∧
      ¬(a.write = true ∧ a.addr = s.platform.regBase + 0x04 ∧ a.wdata.getLsbD 1 = true) ∧ t ≠ s :=
  ⟨State.reset, _, ⟨0x04, 4, true, 1⟩, rfl, by decide, by decide, by decide⟩

/-- The window's edges at a base of 0x1000: its last byte is answered, the bytes around it are not. -/
theorem witness_HostAccessOutside :
    ∃ s : State, s.platform.regBase = 0x1000 ∧
      (0x0FFF < s.platform.regBase ∧ s.platform.regBase + 0x40 ≤ 0x1040) ∧
      ¬(0x103F < s.platform.regBase ∨ s.platform.regBase + 0x40 ≤ 0x103F) ∧
      after (fun t => t.reply) (hostAccess ⟨0x103F, 1, true, 1⟩ s) = some (some ⟨some 0, .err⟩) ∧
      after (fun t => t.reply) (hostAccess ⟨0x1040, 4, true, 1⟩ s) = some none :=
  ⟨{ State.reset with platform := { regBase := 0x1000, hash := .fips } }, rfl, by decide, by decide,
    by decide, by decide⟩

theorem witness_KeyMaterial :
    ∃ (s t t' : State) (a : Access), hostAccess a s = .next t ∧
      hostAccess a { s with k0 := some [1], ipadState := some ipad1, opadState := none
                            u := some [2], t := none } = .next t' :=
  ⟨atPhase 3 job, _, _, ⟨0x08, 4, false, 0⟩, rfl, rfl⟩

theorem witness_Interrupt :
    ∃ s t : State, exec .finish s = .next t ∧ irq t = true :=
  ⟨{ atPhase 8 job with ie := true }, _, rfl, rfl⟩

/-- A running derivation whose output ends at the top of memory or, before CHECK, passes it; an idle
engine. -/
theorem witness_HardwareReset :
    (∃ s : State, s.pending = .hardReset :: [] ∧ s.busy = true ∧ Memory.wf s.mem = true ∧
      s.snap.outRange.contains 0xFFFFFFFF = true ∧ s.snap.outRange.contains 0x100000000 = false ∧
      s.snap.outRange.contains 0xFFFFFFE6 = false) ∧
    (∃ s : State, s.pending = .hardReset :: [] ∧ s.busy = true ∧ Memory.wf s.mem = true ∧
      s.snap.outRange.contains 0xFFFFFFFF = true ∧ s.snap.outRange.contains 0x100000000 = true) ∧
    (∃ s : State, s.pending = .hardReset :: [] ∧ s.busy = false) :=
  ⟨⟨{ atPhase 6 topJob with pending := [.hardReset] }, rfl, rfl, by decide, by decide, by decide,
    by decide⟩,
   ⟨{ atPhase 1 { topJob with outLen := 26 } with pending := [.hardReset] }, rfl, rfl, by decide,
    by decide, by decide⟩,
   ⟨{ State.reset with pending := [.hardReset] }, rfl, rfl⟩⟩

theorem witness_OnlyWriteoutStores :
    ∃ s t : State, Instr.finish ≠ .writeout ∧ exec .finish s = .next t :=
  ⟨atPhase 8 job, _, by decide, rfl⟩

theorem witness_HostsRegisters :
    ∃ s t : State, exec .deriveSha1 s = .next t ∧ t.snap = s.regs ∧ t.snap ≠ s.snap :=
  ⟨{ State.reset with regs := job }, _, rfl, rfl, by decide⟩

theorem witness_Overrun :
    ∃ s t : State, exec .deriveSha256 s = .next t ∧ t.ovr = true ∧ s.ovr = false :=
  ⟨atPhase 8 job, _, rfl, rfl, rfl⟩

theorem witness_Padding :
    (List.replicate 63 0#8).length ≤ blockSize .sha1 - 1 ∧
    (pad .sha1 (List.replicate 63 0#8) 127).length = 2 * blockSize .sha1 := by decide +kernel

theorem witness_DigestHmac :
    u1Bytes.length = digestSize .sha1 ∧ stateVariant ipad1 = .sha1 := by decide

theorem witness_SnapshotHmac : (List.replicate 128 0#8).length = blockSize .sha512 := List.length_replicate

theorem witness_ShorterOutput : 20 ≤ 25 := by decide

/-- A state in the middle of a derivation, with block 1 of 2 in its second iteration. -/
def midway : State := inLoop 5 { job with iter := 3, outLen := 25 } 2 2 u2Bytes t2Bytes

theorem midway_inv : Inv midway where
  memory := by decide
  phaseLegal := by decide
  errcodeClear := fun _ => rfl
  errcodeRaised := by decide
  busyClear := fun _ => ⟨rfl, rfl⟩
  busyVariant := fun _ => by decide
  waitingPhase := fun h => by cases h
  idleAbsent := fun h => by cases h
  earlyAbsent := fun h => absurd h (by decide)
  keyHeld := by decide
  earlyZero := fun h => absurd h (by decide)
  counters := by decide
  derivation := by
    intro v hv
    cases hv
    exact {
      checked := fun _ => ⟨by decide, by decide, by decide, by decide⟩
      key := fun k hk => by cases hk
      keyStates := fun _ => ⟨⟨ipad1, rfl, rfl⟩, ⟨opad1, rfl, rfl⟩⟩
      blockIndex := fun _ => by decide
      values := fun _ => ⟨⟨u2Bytes, rfl, by decide⟩, ⟨t2Bytes, rfl, by decide⟩⟩
      iterating := fun _ => by decide
      accumulating := fun h => absurd h (by decide)
      complete := fun h => absurd h (by decide) }

theorem witness_EveryStep : ∃ s t : State, Inv s ∧ step s = .next t := ⟨midway, _, midway_inv, rfl⟩

theorem witness_NoStepFaults :
    ∃ s : State, Inv s ∧ ∀ a x rest, s.pending = .store a x :: rest → a + x.length ≤ 2 ^ 32 :=
  ⟨midway, midway_inv, fun _ _ _ h => by cases h⟩

theorem witness_EmptyOutput :
    ∃ s : State, s.phase = phaseCheck ∧ s.var = some .sha1 ∧ s.waiting = false ∧ s.pending = [] ∧
      s.snap.iter ≠ 0 ∧ s.snap.outLen = 0 ∧ s.snap.pwRange.wraps = false ∧
      s.snap.saltRange.wraps = false :=
  ⟨atPhase 1 { job with outAddr := 0xFFFFFFFF, outLen := 0 }, rfl, rfl, rfl, rfl, by decide, rfl,
    by decide, by decide⟩

theorem witness_Derivation :
    ∃ (s : State) (n : Nat), s.phase = phaseCheck ∧ s.var = some .sha1 ∧ s.waiting = false ∧
      s.pending = [] ∧ s.bus = [] ∧ s.disturbed = false ∧ Memory.wf s.mem = true ∧
      (∀ a, s.snap.outRange.contains a = true → recorded s.unspecified a = false) ∧
      s.snap.iter ≠ 0 ∧ s.snap.outLen ≠ 0 ∧ checkRanges .sha1 s.snap = none ∧
      n = blockCount .sha1 s.snap.outLen.toNat ∧ 1 < n :=
  ⟨atPhase 1 topJob, 2, rfl, rfl, rfl, rfl, rfl, rfl, by decide, fun _ _ => rfl, by decide, by decide,
    by decide, by decide, by decide⟩

theorem witness_AgentStores :
    0xFFFFFFF0 + (List.replicate 16 1#8).length ≤ 2 ^ 32 ∧ Memory.wf midway.mem = true ∧
    midway.busy = true ∧ State.reset.busy = false ∧
    (Event.store 0xFFFFFFF0 (List.replicate 16 1#8)).respects midway = true ∧
    midway.snap.outRange.contains 0x2018 = true ∧ midway.snap.outRange.contains 0x2019 = false ∧
    midway.snap.pwRange.contains 0x1007 = true ∧ midway.snap.saltRange.contains 0x1010 = true ∧
    ended.busy = false ∧ (∃ p ∈ ended.unseen, p.outRange.contains 0x2013 = true) ∧
    (∀ p ∈ ended.unseen, p.outRange.contains 0x2014 = false) ∧
    (Event.store 0x2013 [1]).respects ended = false ∧
    (Event.store 0x2014 [1]).respects ended = true := by
  decide

theorem witness_StepTakesTheNextEvent :
    ∃ s t : State, s.pending = [.store 0x1007 [1#8]] ∧ step s = .next t ∧ t.disturbed = true :=
  ⟨{ midway with pending := [.store 0x1007 [1#8]] }, _, rfl, rfl, by decide⟩

end Sys2Proof.Tests
end

/-! PROOFS of family 00_scope. How a step takes its event (R8), and the encodings of R15. -/

namespace Sys2Proof.Machine

/-! ## The schedule and the engine's turn -/

section
variable {s : State}

/-- With no event pending the engine steps alone (R8). -/
theorem step_of_pending_nil (h : s.pending = []) : step s = engineTurn s := by
  simp only [step, takeEvent, h]

/-- A listed event is performed on the state with that event taken (R8). -/
theorem step_of_pending_cons {e : Event} {rest : List Event} (h : s.pending = e :: rest) :
    step s = perform e { s with pending := rest } := by
  simp only [step, takeEvent, h]

/-- U12: while a transaction is unanswered the engine's turn changes nothing. -/
theorem engineTurn_of_waiting (h : s.waiting = true) : engineTurn s = .next s := by
  simp only [engineTurn, h, if_true]

/-- R85: otherwise it runs the micro-operation that the phase decodes to. -/
theorem engineTurn_of_decodeUop_ok {i : Instr} (hw : s.waiting = false)
    (hd : decodeUop s.phase = .ok i) : engineTurn s = exec i s := by
  simp [engineTurn, hw, hd]

/-- U10: a phase that decodes to nothing is a fault. -/
theorem engineTurn_of_decodeUop_error {e : DecodeError} (hw : s.waiting = false)
    (hd : decodeUop s.phase = .error e) : engineTurn s = .fault (.phaseNeverHeld s.phase) := by
  simp [engineTurn, hw, hd]

end

/-- R65: the codes 0x9 to 0xF name no micro-operation. -/
theorem decodeUop_of_nine_le :
    ∀ c : BitVec 4, 9 ≤ c.toNat → decodeUop c = .error (.phaseNeverHeld c) := by
  decide

/-- Settles O4: either way of reaching the engine's turn is `engineTurn` on the state with the event
taken, and that state has the phase and the open transaction of the first. -/
theorem engineTurnRunsTheDecodedMicroOperation :
    Obligations.EngineTurnRunsTheDecodedMicroOperation := by
  intro s u hu
  have hturn : step s = engineTurn u ∧ u.waiting = s.waiting ∧ u.phase = s.phase := by
    rcases hu with ⟨hp, rfl⟩ | ⟨rest, hp, rfl⟩
    · exact ⟨step_of_pending_nil hp, rfl, rfl⟩
    · exact ⟨step_of_pending_cons hp, rfl, rfl⟩
  obtain ⟨hstep, hwaiting, hphase⟩ := hturn
  rw [hstep, ← hwaiting, ← hphase]
  exact ⟨engineTurn_of_waiting, fun _ => engineTurn_of_decodeUop_ok, fun hw h9 =>
    engineTurn_of_decodeUop_error hw (decodeUop_of_nine_le _ h9)⟩

/-- Settles O60: each clause is the listed event performed, read off by its constructor. -/
theorem stepTakesTheNextEvent : Obligations.StepTakesTheNextEvent :=
  fun _ _ => ⟨fun _ => step_of_pending_cons, fun _ _ => step_of_pending_cons, step_of_pending_cons⟩

/-! ## The encodings of R15 -/

/-- R15: the four bytes of BE32 are the base-256 digits of the word, the most significant first. -/
theorem toNat_be32 (i : Word) :
    ((be32 i).getD 0 0#8).toNat * 2 ^ 24 + ((be32 i).getD 1 0#8).toNat * 2 ^ 16 +
      ((be32 i).getD 2 0#8).toNat * 2 ^ 8 + ((be32 i).getD 3 0#8).toNat = i.toNat := by
  have hi := i.isLt
  simp only [be32, List.getD_cons_zero, List.getD_cons_succ, BitVec.toNat_setWidth,
    BitVec.toNat_ushiftRight, Nat.shiftRight_eq_div_pow]
  omega

/-- The last of `w + 1` big-endian bytes is the lowest one, and those before it encode the rest. -/
theorem bigEndian_succ (v w : Nat) :
    bigEndian v (w + 1) = bigEndian (v / 256) w ++ [BitVec.ofNat 8 v] := by
  have hinit : ∀ k ∈ List.range w, BitVec.ofNat 8 (v >>> (8 * (w + 1 - 1 - k))) =
      BitVec.ofNat 8 ((v / 256) >>> (8 * (w - 1 - k))) := by
    intro k hk
    have hk := List.mem_range.mp hk
    rw [show 8 * (w + 1 - 1 - k) = 8 + 8 * (w - 1 - k) by omega, Nat.shiftRight_add,
      Nat.shiftRight_eq_div_pow v 8]
  rw [bigEndian, List.range_succ, List.map_append, List.map_congr_left hinit]
  simp [bigEndian]

/-- Reading `w` big-endian bytes back gives the value they had room for. -/
theorem foldl_bigEndian (v w : Nat) :
    (bigEndian v w).foldl (fun n b => 256 * n + b.toNat) 0 = v % 2 ^ (8 * w) := by
  induction w generalizing v with
  | zero => simp [bigEndian, Nat.mod_one]
  | succ w ih =>
    rw [bigEndian_succ, List.foldl_append, ih, show 2 ^ (8 * (w + 1)) = 256 * 2 ^ (8 * w) by ring,
      Nat.mod_mul]
    simp only [List.foldl_cons, List.foldl_nil, BitVec.toNat_ofNat]
    omega

/-- Settles O49: BE32 digit by digit, BEn by induction on the number of bytes. -/
theorem encodingsAreBigEndian : Obligations.EncodingsAreBigEndian :=
  ⟨fun i => ⟨rfl, toNat_be32 i⟩, fun v w hv =>
    ⟨length_bigEndian v w, (foldl_bigEndian v w).trans (Nat.mod_eq_of_lt hv)⟩⟩

end Sys2Proof.Machine

/-! PROOFS of O58: an undisturbed derivation. The run is followed micro-operation by micro-operation
through states of one shape, `loopState`, over the memory that the blocks written so far have left. -/

namespace Sys2Proof.Machine

/-! ## HMAC from the two key states -/

/-- R83: resuming from the two states that PRECOMP makes is HMAC under the padded key. -/
theorem hmacFrom_precomp (c : HashCores) (v : Variant) (k m : List Byte)
    (hk : k.length = blockSize v) :
    hmacFrom c v (hAbsorb c (hInit c v) (padBlock v k 0x36#8))
      (hAbsorb c (hInit c v) (padBlock v k 0x5c#8)) m = hmacOf c v k m := by
  have hpad : ∀ b, (padBlock v k b).length = blockSize v := by simp [padBlock, hk]
  have hdigest : ∀ b x, hDigest c v (padBlock v k b ++ x) =
      hFinalize c v (hAbsorbAll c v (hAbsorb c (hInit c v) (padBlock v k b)) x).1
        (hAbsorbAll c v (hAbsorb c (hInit c v) (padBlock v k b)) x).2 (blockSize v + x.length) := by
    intro b x
    simp only [hDigest, hAbsorbAll_block_append _ _ _ _ _ (hpad b), List.length_append, hpad]
  rw [hmacOf, hdigest 0x5c#8, length_hDigest, hAbsorbAll_short _ _ _ _ (by
    rw [length_hDigest]; exact digestSize_lt_blockSize v), hdigest 0x36#8]
  rfl

@[simp] theorem length_uValue (c : HashCores) (v : Variant) (k salt : List Byte) (i : Word) (j : Nat) :
    (uValue c v k salt i j).length = digestSize v := by
  cases j <;> simp [uValue, hmacOf]

@[simp] theorem length_tValue (c : HashCores) (v : Variant) (k salt : List Byte) (i : Word) (j : Nat) :
    (tValue c v k salt i j).length = digestSize v := by
  induction j with
  | zero => simp [tValue]
  | succ j ih => simp [tValue, ih]

/-! ## PBKDF2 block by block -/

/-- What the first `b` blocks of PBKDF2 put into the output. -/
def pbkdf2Blocks (c : HashCores) (v : Variant) (p salt : List Byte) (iters outLen b : Nat) : List Byte :=
  ((List.range b).flatMap fun k =>
    tValue c v (paddedKey c v p) salt (BitVec.ofNat 32 (k + 1)) (iters - 1)).take outLen

section
variable (c : HashCores) (v : Variant) (p salt : List Byte) (iters outLen : Nat)

/-- All blocks together are PBKDF2. -/
theorem pbkdf2Blocks_blockCount :
    pbkdf2Blocks c v p salt iters outLen (blockCount v outLen) = pbkdf2 c v p salt iters outLen := rfl

theorem length_pbkdf2Blocks (b : Nat) :
    (pbkdf2Blocks c v p salt iters outLen b).length = min outLen (b * digestSize v) := by
  simp [pbkdf2Blocks, List.length_flatMap]

/-- The next block adds its first `min(D, L - off)` bytes (R90). -/
theorem pbkdf2Blocks_succ (b : Nat) :
    pbkdf2Blocks c v p salt iters outLen (b + 1) = pbkdf2Blocks c v p salt iters outLen b ++
      (tValue c v (paddedKey c v p) salt (BitVec.ofNat 32 (b + 1)) (iters - 1)).take
        (min (digestSize v) (outLen - b * digestSize v)) := by
  simp [pbkdf2Blocks, List.range_succ, List.take_append, List.length_flatMap, List.take_eq_take_iff,
    Nat.min_comm]

/-- The blocks of PBKDF2 fill the output (R16). -/
theorem le_blockCount_mul : outLen ≤ blockCount v outLen * digestSize v := by
  have hD := digestSize_pos v
  have := Nat.div_add_mod (outLen + digestSize v - 1) (digestSize v)
  have := Nat.mod_lt (outLen + digestSize v - 1) hD
  rw [blockCount, Nat.mul_comm]
  omega

@[simp] theorem length_pbkdf2 : (pbkdf2 c v p salt iters outLen).length = outLen := by
  rw [← pbkdf2Blocks_blockCount, length_pbkdf2Blocks]
  exact Nat.min_eq_left (le_blockCount_mul v outLen)

end

/-! ## Words, memory and its transactions -/

/-- Two stores of adjoining byte strings are one store (R47). -/
theorem Memory.writeBytes_append (x y : List Byte) (m : Memory) (a : Nat) :
    Memory.writeBytes m a (x ++ y) = Memory.writeBytes (Memory.writeBytes m a x) (a + x.length) y := by
  induction x generalizing m a with
  | nil => rfl
  | cons b x ih =>
    rw [List.cons_append, Memory.writeBytes, ih, Memory.writeBytes, List.length_cons,
      Nat.add_right_comm, Nat.add_assoc]

/-- A word that is not 0 counts at least one. -/
theorem one_le_toNat {w : Word} (h : w ≠ 0) : 1 ≤ w.toNat :=
  Nat.one_le_iff_ne_zero.mpr fun h0 => h (BitVec.eq_of_toNat_eq h0)

/-- A count up to a word's value equals the word exactly when the numbers are equal. -/
theorem ofNat_eq_iff_of_le {c : Word} {k : Nat} (hk : k ≤ c.toNat) :
    BitVec.ofNat 32 k = c ↔ k = c.toNat := by
  have := c.isLt
  rw [← BitVec.toNat_inj, BitVec.toNat_ofNat, Nat.mod_eq_of_lt (by omega)]

section
variable {s : State}

theorem popAnswer_of_bus_nil (hb : s.bus = []) : popAnswer s = s := by
  rw [popAnswer, hb, List.tail_nil, ← hb]

theorem nextAnswer_of_bus_nil (hb : s.bus = []) : nextAnswer s = .ok := by
  simp [nextAnswer, hb]

/-- With no answer arranged a byte string inside memory is read whole; the empty one needs no
transaction (R46, R50). -/
theorem withString_of_bus_nil {addr len : Word} {rest : List Byte → State → Result} (hb : s.bus = [])
    (hr : (⟨addr.toNat, len.toNat⟩ : Range).wraps = false) :
    withString addr len s rest = rest (s.mem.readBytes addr.toNat len.toNat) s := by
  unfold withString
  split
  · next h0 => simp [h0, Memory.readBytes]
  · next h0 =>
    rw [if_neg (Nat.not_lt.mpr (wraps_false hr (one_le_toNat h0))), nextAnswer_of_bus_nil hb,
      popAnswer_of_bus_nil hb]

/-- With no answer arranged a store inside memory lands whole (R47). -/
theorem withWrite_of_bus_nil {a n : Nat} {x : List Byte} {rest : State → Result} (hb : s.bus = [])
    (h : a + n ≤ Config.memorySpace) :
    withWrite a n x s rest = rest { s with mem := s.mem.writeBytes a x } := by
  rw [withWrite, if_neg (Nat.not_lt.mpr h), nextAnswer_of_bus_nil hb, popAnswer_of_bus_nil hb]

/-- The engine alone, not waiting, runs the micro-operation of its phase. -/
theorem step_alone {i : Instr} (hp : s.pending = []) (hw : s.waiting = false)
    (hd : decodeUop s.phase = .ok i) : step s = exec i s :=
  (step_of_pending_nil hp).trans (engineTurn_of_decodeUop_ok hw hd)

end

/-! ## The micro-operations where nothing stops them -/

section
variable {s : State} {v : Variant}

/-- CHECK of a legal job with a non-empty output (R86). -/
theorem execCheck_of_legal (hv : s.var = some v) (hc : s.snap.iter ≠ 0)
    (hr : checkRanges v s.snap = none) (hn : blockCount v s.snap.outLen.toNat ≠ 0) :
    execCheck s = .next { s with
      nblk := BitVec.ofNat 32 (blockCount v s.snap.outLen.toNat), phase := phaseKeyload } := by
  rw [execCheck, if_neg hc, withVariant_some hv, hr]
  simp only [if_neg hn]

/-- KEYLOAD with its password read (R79). -/
theorem execKeyload_of_bus_nil (hv : s.var = some v) (hb : s.bus = [])
    (hr : s.snap.pwRange.wraps = false) :
    execKeyload s = .next { s with
      k0 := some (paddedKey (cores s) v (s.mem.readBytes s.snap.pwAddr.toNat s.snap.pwLen.toNat))
      phase := phasePrecomp } := by
  rw [execKeyload, withVariant_some hv, withString_of_bus_nil hb hr]

/-- PRECOMP with its key (R80). -/
theorem execPrecomp_of_some {k : List Byte} (hv : s.var = some v) (hk : s.k0 = some k) :
    execPrecomp s = .next { s with
      ipadState := some (hAbsorb (cores s) (hInit (cores s) v) (padBlock v k 0x36#8))
      opadState := some (hAbsorb (cores s) (hInit (cores s) v) (padBlock v k 0x5c#8))
      k0 := none, i := 1, phase := phaseU1 } := by
  rw [execPrecomp, withVariant_some hv, hk, withValue_some]

/-- U1 with its salt read (R87). -/
theorem execU1_of_bus_nil {ipad opad : HashState} {u : List Byte} (hv : s.var = some v)
    (hi : s.ipadState = some ipad) (ho : s.opadState = some opad) (hb : s.bus = [])
    (hr : s.snap.saltRange.wraps = false)
    (hu : hmacFrom (cores s) v ipad opad
      (s.mem.readBytes s.snap.saltAddr.toNat s.snap.saltLen.toNat ++ be32 s.i) = u) :
    execU1 s = .next { s with
      u := some u, t := some u, j := 1
      phase := if s.snap.iter = 1 then phaseWriteout else phaseUiter } := by
  rw [execU1, withVariant_some hv, hi, ho, withValue_some, withValue_some,
    withString_of_bus_nil hb hr, hu, ← hi, ← ho]

/-- UITER with its values (R88). -/
theorem execUiter_of_some {ipad opad : HashState} {u x : List Byte} (hv : s.var = some v)
    (hi : s.ipadState = some ipad) (ho : s.opadState = some opad) (hu : s.u = some u)
    (hx : hmacFrom (cores s) v ipad opad u = x) :
    execUiter s = .next { s with
      u := some x
      j := BitVec.ofNat 32 (s.j.toNat + 1), phase := phaseXoracc } := by
  rw [execUiter, withVariant_some hv, hi, ho, hu, withValue_some, withValue_some, withValue_some, hx,
    ← hi, ← ho]

/-- XORACC with its values (R89). -/
theorem execXoracc_of_some {t u : List Byte} (ht : s.t = some t) (hu : s.u = some u) :
    execXoracc s = .next { s with
      t := some (xorBytes t u)
      phase := if s.j = s.snap.iter then phaseWriteout else phaseUiter } := by
  rw [execXoracc, ht, hu, withValue_some, withValue_some]

/-- WRITEOUT of a block inside the output, stored without a race (R90). -/
theorem execWriteout_of_bus_nil {t : List Byte} (hv : s.var = some v) (ht : s.t = some t)
    (hi : s.i ≠ 0) (ho : blockOffset v s.i < s.snap.outLen.toNat)
    (hd : raced (blockRange v s) s = false) (hb : s.bus = [])
    (hm : (blockRange v s).start + (blockRange v s).len ≤ Config.memorySpace) :
    execWriteout s = .next (nextBlock { s with
      mem := s.mem.writeBytes (blockRange v s).start (t.take (blockRange v s).len) }) := by
  rw [execWriteout, withVariant_some hv, ht, withValue_some,
    if_neg (not_or.mpr ⟨hi, Nat.not_le.mpr ho⟩)]
  simp only [outputOf_clean hd, withWrite_of_bus_nil hb hm, ht]

end

/-! ## Ranges without a race or an overlap -/

/-- WRITEOUT is not raced in a range of which nothing is recorded, unless an input was disturbed (U3). -/
theorem raced_eq_false_of_unrecorded {w r : Range} {s : State} (hd : s.disturbed = false)
    (hu : ∀ a, r.contains a = true → recorded s.unspecified a = false)
    (hw : ∀ a, w.contains a = true → r.contains a = true) : raced w s = false := by
  simp only [raced, hd, Bool.false_or, List.any_eq_false]
  intro q hq hov
  simp only [Range.overlaps, decide_eq_true_eq] at hov
  have hin : w.contains (max q.start w.start) = true := by rw [contains_iff]; omega
  have hq' : recorded s.unspecified (max q.start w.start) = true :=
    List.any_eq_true.mpr ⟨q, hq, by rw [contains_iff]; omega⟩
  rw [hu _ (hw _ hin)] at hq'
  cases hq'

/-- Ranges that do not overlap, one of them not empty, lie one after the other, unless the other is
empty. -/
theorem apart_of_overlaps_eq_false {r q : Range} (h : r.overlaps q = false) (hr : 1 ≤ r.len) :
    q.len = 0 ∨ q.start + q.len ≤ r.start ∨ r.start + r.len ≤ q.start := by
  simp only [Range.overlaps, decide_eq_false_iff_not] at h
  omega

/-! ## The derivation left alone -/

/-- A derivation of variant `v` that is about to pass CHECK, with nothing else going on and no race
before it: the premises of O58. -/
structure LeftAlone (v : Variant) (s : State) : Prop where
  phase : s.phase = phaseCheck
  var : s.var = some v
  waiting : s.waiting = false
  pending : s.pending = []
  bus : s.bus = []
  disturbed : s.disturbed = false
  memory : Memory.wf s.mem = true
  unrecorded : ∀ a, s.snap.outRange.contains a = true → recorded s.unspecified a = false
  iter : s.snap.iter ≠ 0
  outLen : s.snap.outLen ≠ 0
  ranges : checkRanges v s.snap = none

/-- The password at the start of a derivation. -/
def jobPassword (s : State) : List Byte := s.mem.readBytes s.snap.pwAddr.toNat s.snap.pwLen.toNat

/-- The salt at the start of a derivation. -/
def jobSalt (s : State) : List Byte := s.mem.readBytes s.snap.saltAddr.toNat s.snap.saltLen.toNat

/-- The padded key of a derivation. -/
def jobKey (v : Variant) (s : State) : List Byte := paddedKey (cores s) v (jobPassword s)

/-- The inner key state of a derivation (R80). -/
def jobIpad (v : Variant) (s : State) : HashState :=
  hAbsorb (cores s) (hInit (cores s) v) (padBlock v (jobKey v s) 0x36#8)

/-- The outer key state of a derivation (R80). -/
def jobOpad (v : Variant) (s : State) : HashState :=
  hAbsorb (cores s) (hInit (cores s) v) (padBlock v (jobKey v s) 0x5c#8)

/-- The number of blocks of a derivation. -/
def jobBlocks (v : Variant) (s : State) : Nat := blockCount v s.snap.outLen.toNat

/-- `U(k + 1)` of block `i` of a derivation. -/
def jobU (v : Variant) (s : State) (i : Word) (k : Nat) : List Byte :=
  uValue (cores s) v (jobKey v s) (jobSalt s) i k

/-- `U(1) XOR ... XOR U(k + 1)` of block `i` of a derivation. -/
def jobT (v : Variant) (s : State) (i : Word) (k : Nat) : List Byte :=
  tValue (cores s) v (jobKey v s) (jobSalt s) i k

/-- The output bytes of the first `b` blocks of a derivation. -/
def jobOutput (v : Variant) (s : State) (b : Nat) : List Byte :=
  pbkdf2Blocks (cores s) v (jobPassword s) (jobSalt s) s.snap.iter.toNat s.snap.outLen.toNat b

/-- The memory once `b` blocks are written. -/
def jobMem (v : Variant) (s : State) (b : Nat) : Memory :=
  s.mem.writeBytes s.snap.outAddr.toNat (jobOutput v s b)

/-- The derivation that started in `s`, somewhere in its block loop. -/
def loopState (v : Variant) (s : State) (phase : BitVec 4) (i j : Word) (u t : Option (List Byte))
    (m : Memory) : State :=
  { s with
    phase := phase
    nblk := BitVec.ofNat 32 (jobBlocks v s)
    k0 := none
    ipadState := some (jobIpad v s)
    opadState := some (jobOpad v s)
    i := i
    j := j
    u := u
    t := t
    mem := m }

/-- Block `i` with `k + 1` iterations done. -/
def iterState (v : Variant) (s : State) (i : Word) (k : Nat) (m : Memory) : State :=
  loopState v s (if k + 1 = s.snap.iter.toNat then phaseWriteout else phaseUiter) i
    (BitVec.ofNat 32 (k + 1)) (some (jobU v s i k)) (some (jobT v s i k)) m

/-- Block `b + 1` ready to be written over the memory `m`. -/
def blockDone (v : Variant) (s : State) (b : Nat) (m : Memory) : State :=
  loopState v s phaseWriteout (BitVec.ofNat 32 (b + 1)) s.snap.iter
    (some (jobU v s (BitVec.ofNat 32 (b + 1)) (s.snap.iter.toNat - 1)))
    (some (jobT v s (BitVec.ofNat 32 (b + 1)) (s.snap.iter.toNat - 1))) m

/-- The end of the derivation that started in `s`. -/
def endState (v : Variant) (s : State) : State :=
  { s with
    phase := phaseIdle
    nblk := BitVec.ofNat 32 (jobBlocks v s)
    k0 := none
    ipadState := none
    opadState := none
    i := BitVec.ofNat 32 (jobBlocks v s)
    j := s.snap.iter
    u := none
    t := none
    mem := jobMem v s (jobBlocks v s)
    done := true }

section
variable {v : Variant} {s : State}

/-- The engine's HMAC of a derivation is HMAC under its key (R82, R83). -/
theorem hmacFrom_job (v : Variant) (s : State) (m : List Byte) :
    hmacFrom (cores s) v (jobIpad v s) (jobOpad v s) m = hmacOf (cores s) v (jobKey v s) m :=
  hmacFrom_precomp _ _ _ _ (length_paddedKey _ _ _)

/-- The block loop's states are undisturbed, too. -/
theorem LeftAlone.step_loopState (h : LeftAlone v s) {phase : BitVec 4} {x : Instr} {i j : Word}
    {u t : Option (List Byte)} {m : Memory} (hd : decodeUop phase = .ok x) :
    step (loopState v s phase i j u t m) = exec x (loopState v s phase i j u t m) :=
  step_alone h.pending h.waiting hd

theorem LeftAlone.iter_pos (h : LeftAlone v s) : 1 ≤ s.snap.iter.toNat := one_le_toNat h.iter

theorem LeftAlone.outLen_pos (h : LeftAlone v s) : 1 ≤ s.snap.outLen.toNat :=
  one_le_toNat h.outLen

theorem LeftAlone.jobBlocks_lt (h : LeftAlone v s) : jobBlocks v s < 2 ^ 32 := by
  have := (checkRanges_none h.ranges).1
  rw [jobBlocks]
  omega

theorem LeftAlone.jobBlocks_pos (h : LeftAlone v s) : 0 < jobBlocks v s := by
  have hpos := h.outLen_pos
  have hle := le_blockCount_mul v s.snap.outLen.toNat
  refine Nat.pos_of_ne_zero fun h0 => ?_
  rw [jobBlocks] at h0
  simp only [h0, Nat.zero_mul] at hle
  omega

/-- The output range lies inside memory. -/
theorem LeftAlone.output_le (h : LeftAlone v s) :
    s.snap.outAddr.toNat + s.snap.outLen.toNat ≤ Config.memorySpace := by
  obtain ⟨-, -, -, hout, -, -⟩ := checkRanges_none h.ranges
  exact wraps_false hout h.outLen_pos

theorem length_jobOutput_le (b : Nat) : (jobOutput v s b).length ≤ s.snap.outLen.toNat := by
  rw [jobOutput, length_pbkdf2Blocks]
  exact Nat.min_le_left _ _

theorem jobMem_zero : jobMem v s 0 = s.mem := by
  simp [jobMem, jobOutput, pbkdf2Blocks, Memory.writeBytes]

/-- The blocks written do not reach the salt (R86). -/
theorem LeftAlone.salt_jobMem (h : LeftAlone v s) (b : Nat) :
    (jobMem v s b).readBytes s.snap.saltAddr.toNat s.snap.saltLen.toNat = jobSalt s := by
  have hlen := length_jobOutput_le (v := v) (s := s) b
  have hout := h.output_le
  obtain ⟨-, -, -, -, -, hsalt⟩ := checkRanges_none h.ranges
  have hsep := apart_of_overlaps_eq_false hsalt h.outLen_pos
  simp only [Params.saltRange, Params.outRange] at hsep
  rcases hsep with h0 | hsep
  · simp [jobSalt, h0, Memory.readBytes]
  · exact Memory.readBytes_writeBytes_disjoint _ _ _ _ _ (by omega) h.memory (by omega)

/-- CHECK, KEYLOAD and PRECOMP lead to U1 of block 1 (R79, R80, R86). -/
theorem LeftAlone.run_to_firstBlock (h : LeftAlone v s) :
    Host.Core.run Sys2Proof.core 3 s = .next (loopState v s phaseU1 1 s.j s.u s.t s.mem) := by
  obtain ⟨-, hpw, -⟩ := checkRanges_none h.ranges
  have hcheck := (step_alone (i := .check) h.pending h.waiting (by rw [h.phase]; rfl)).trans
    (execCheck_of_legal h.var h.iter h.ranges h.jobBlocks_pos.ne')
  have hkeyload := (step_alone (i := .keyload) (s := { s with
      nblk := BitVec.ofNat 32 (jobBlocks v s), phase := phaseKeyload }) h.pending h.waiting rfl).trans
    (execKeyload_of_bus_nil h.var h.bus hpw)
  have hprecomp := (step_alone (i := .precomp) (s := { s with
      nblk := BitVec.ofNat 32 (jobBlocks v s), phase := phasePrecomp, k0 := some (jobKey v s) })
      h.pending h.waiting rfl).trans (execPrecomp_of_some h.var rfl)
  exact (run_next hcheck).trans <| (run_next hkeyload).trans <| run_next hprecomp

/-- U1 makes the first value of its block, over any memory that holds the salt (R87). -/
theorem LeftAlone.step_u1 (h : LeftAlone v s) (i j : Word) (u t : Option (List Byte)) {m : Memory}
    (hm : m.readBytes s.snap.saltAddr.toNat s.snap.saltLen.toNat = jobSalt s) :
    step (loopState v s phaseU1 i j u t m) = .next (iterState v s i 0 m) := by
  obtain ⟨-, -, hsalt, -⟩ := checkRanges_none h.ranges
  have hhmac : hmacFrom (cores s) v (jobIpad v s) (jobOpad v s)
      (m.readBytes s.snap.saltAddr.toNat s.snap.saltLen.toNat ++ be32 i) = jobU v s i 0 := by
    rw [hm, hmacFrom_job]
    rfl
  have hone : 0 + 1 = s.snap.iter.toNat ↔ s.snap.iter = 1 :=
    (ofNat_eq_iff_of_le h.iter_pos).symm.trans eq_comm
  refine (h.step_loopState (x := .u1) rfl).trans <| (execU1_of_bus_nil
    (s := loopState v s phaseU1 i j u t m) h.var rfl rfl h.bus hsalt hhmac).trans ?_
  simp only [iterState, hone]
  rfl

/-- UITER and XORACC do one more iteration (R88, R89). -/
theorem LeftAlone.run_iteration (h : LeftAlone v s) (i : Word) {k : Nat} (m : Memory)
    (hk : k + 1 < s.snap.iter.toNat) :
    Host.Core.run Sys2Proof.core 2 (iterState v s i k m) = .next (iterState v s i (k + 1) m) := by
  have hlt := s.snap.iter.isLt
  have hj : (BitVec.ofNat 32 (k + 1)).toNat + 1 = k + 2 := by
    rw [BitVec.toNat_ofNat, Nat.mod_eq_of_lt (by omega)]
  have huiter : step (iterState v s i k m) = .next (loopState v s phaseXoracc i
      (BitVec.ofNat 32 (k + 2)) (some (jobU v s i (k + 1))) (some (jobT v s i k)) m) := by
    rw [iterState, if_neg hk.ne]
    refine (h.step_loopState (x := .uiter) rfl).trans <| (execUiter_of_some
      (s := loopState v s phaseUiter i (BitVec.ofNat 32 (k + 1)) (some (jobU v s i k))
        (some (jobT v s i k)) m) h.var rfl rfl rfl (hmacFrom_job v s _)).trans ?_
    simp only [loopState, hj]
    rfl
  have hxoracc : step (loopState v s phaseXoracc i (BitVec.ofNat 32 (k + 2))
      (some (jobU v s i (k + 1))) (some (jobT v s i k)) m) = .next (iterState v s i (k + 1) m) := by
    refine (h.step_loopState (x := .xoracc) rfl).trans <| (execXoracc_of_some rfl rfl).trans ?_
    simp only [iterState, loopState, ofNat_eq_iff_of_le hk]
    rfl
  exact (run_next huiter).trans (run_next hxoracc)

/-- U1 and `k` iterations of block `i`. -/
theorem LeftAlone.run_iterations (h : LeftAlone v s) (i j : Word) (u t : Option (List Byte))
    {m : Memory} (hm : m.readBytes s.snap.saltAddr.toNat s.snap.saltLen.toNat = jobSalt s) {k : Nat}
    (hk : k < s.snap.iter.toNat) :
    Host.Core.run Sys2Proof.core (1 + 2 * k) (loopState v s phaseU1 i j u t m) =
      .next (iterState v s i k m) := by
  induction k with
  | zero => exact run_next (h.step_u1 i j u t hm)
  | succ k ih =>
    rw [Nat.mul_succ, ← Nat.add_assoc, run_add (ih (by omega))]
    exact h.run_iteration i m hk

/-- All `c` iterations leave the block ready for WRITEOUT. -/
theorem LeftAlone.iterState_last (h : LeftAlone v s) (b : Nat) (m : Memory) :
    iterState v s (BitVec.ofNat 32 (b + 1)) (s.snap.iter.toNat - 1) m = blockDone v s b m := by
  rw [iterState, Nat.sub_add_cancel h.iter_pos, if_pos rfl, (ofNat_eq_iff_of_le le_rfl).mpr rfl]
  rfl

theorem LeftAlone.toNat_blockIndex (h : LeftAlone v s) {b : Nat} (hb : b < jobBlocks v s) :
    (BitVec.ofNat 32 (b + 1)).toNat = b + 1 := by
  have := h.jobBlocks_lt
  rw [BitVec.toNat_ofNat, Nat.mod_eq_of_lt (by omega)]

/-- Block `b + 1` starts after `b` digests (R90). -/
theorem LeftAlone.blockOffset_eq (h : LeftAlone v s) {b : Nat} (hb : b < jobBlocks v s) :
    blockOffset v (BitVec.ofNat 32 (b + 1)) = b * digestSize v := by
  rw [blockOffset, h.toNat_blockIndex hb, Nat.add_sub_cancel]

theorem LeftAlone.offset_lt (h : LeftAlone v s) {b : Nat} (hb : b < jobBlocks v s) :
    b * digestSize v < s.snap.outLen.toNat := by
  have hi := h.toNat_blockIndex hb
  rw [← h.blockOffset_eq hb]
  exact blockOffset_lt (s := blockDone v s b s.mem) (hi.symm ▸ Nat.le_add_left 1 b) (hi.symm ▸ hb)

/-- The range WRITEOUT writes for block `b + 1` (R90). -/
theorem LeftAlone.blockRange_eq (h : LeftAlone v s) {b : Nat} (hb : b < jobBlocks v s) (m : Memory) :
    blockRange v (blockDone v s b m) = ⟨s.snap.outAddr.toNat + b * digestSize v,
      min (digestSize v) (s.snap.outLen.toNat - b * digestSize v)⟩ := by
  rw [← h.blockOffset_eq hb]
  rfl

/-- No race reaches a block of a derivation left alone. -/
theorem LeftAlone.raced_blockDone (h : LeftAlone v s) {b : Nat} (hb : b < jobBlocks v s) (m : Memory) :
    raced (blockRange v (blockDone v s b m)) (blockDone v s b m) = false := by
  refine raced_eq_false_of_unrecorded h.disturbed h.unrecorded fun a ha => ?_
  simp only [h.blockRange_eq hb, contains_iff, Params.outRange] at ha ⊢
  omega

/-- Storing block `b + 1` at its place lengthens the output by it. -/
theorem LeftAlone.jobMem_succ (h : LeftAlone v s) {b : Nat} (hb : b < jobBlocks v s) :
    (jobMem v s b).writeBytes (s.snap.outAddr.toNat + b * digestSize v)
      ((jobT v s (BitVec.ofNat 32 (b + 1)) (s.snap.iter.toNat - 1)).take
        (min (digestSize v) (s.snap.outLen.toNat - b * digestSize v))) = jobMem v s (b + 1) := by
  have hlen : (jobOutput v s b).length = b * digestSize v := by
    rw [jobOutput, length_pbkdf2Blocks, Nat.min_eq_right (h.offset_lt hb).le]
  rw [jobMem, jobMem, ← hlen, ← Memory.writeBytes_append, hlen]
  exact congrArg _ (pbkdf2Blocks_succ ..).symm

/-- WRITEOUT adds its block to the output (R90). -/
theorem LeftAlone.step_writeout (h : LeftAlone v s) {b : Nat} (hb : b < jobBlocks v s) :
    step (blockDone v s b (jobMem v s b)) = .next (nextBlock (blockDone v s b (jobMem v s (b + 1)))) := by
  have hout := h.output_le
  have hoff := h.offset_lt hb
  have hindex : BitVec.ofNat 32 (b + 1) ≠ 0 := fun h0 => by
    simpa [h0] using h.toNat_blockIndex hb
  refine (h.step_loopState (x := .writeout) rfl).trans <| (execWriteout_of_bus_nil
    (s := blockDone v s b (jobMem v s b)) h.var rfl hindex ((h.blockOffset_eq hb).trans_lt hoff)
    (h.raced_blockDone hb _) h.bus ?_).trans ?_
  · rw [h.blockRange_eq hb]
    dsimp only
    omega
  · rw [h.blockRange_eq hb, ← h.jobMem_succ hb]
    rfl

/-- A block takes `2 c` micro-operations. -/
theorem LeftAlone.run_block (h : LeftAlone v s) {b : Nat} (hb : b < jobBlocks v s) (j : Word)
    (u t : Option (List Byte)) :
    Host.Core.run Sys2Proof.core (2 * s.snap.iter.toNat)
        (loopState v s phaseU1 (BitVec.ofNat 32 (b + 1)) j u t (jobMem v s b)) =
      .next (nextBlock (blockDone v s b (jobMem v s (b + 1)))) := by
  have hiter := h.iter_pos
  have hloop := h.run_iterations (BitVec.ofNat 32 (b + 1)) j u t (h.salt_jobMem b)
    (k := s.snap.iter.toNat - 1) (by omega)
  rw [h.iterState_last] at hloop
  rw [show 2 * s.snap.iter.toNat = 1 + 2 * (s.snap.iter.toNat - 1) + 1 by omega, run_add hloop]
  exact run_next (h.step_writeout hb)

/-- WRITEOUT goes on to the next block while there is one (R85, R90). -/
theorem nextBlock_loopState_of_ne {phase : BitVec 4} {i j : Word} {u t : Option (List Byte)}
    {m : Memory} (hi : i ≠ BitVec.ofNat 32 (jobBlocks v s)) :
    nextBlock (loopState v s phase i j u t m) =
      loopState v s phaseU1 (BitVec.ofNat 32 (i.toNat + 1)) j u t m := if_neg hi

/-- After the last block FINISH is next. -/
theorem nextBlock_loopState_of_eq {phase : BitVec 4} {i j : Word} {u t : Option (List Byte)}
    {m : Memory} (hi : i = BitVec.ofNat 32 (jobBlocks v s)) :
    nextBlock (loopState v s phase i j u t m) = loopState v s phaseFinish i j u t m := if_pos hi

/-- The run up to block `b + 1`, the blocks before it written. -/
theorem LeftAlone.run_to_block (h : LeftAlone v s) {b : Nat} (hb : b < jobBlocks v s) :
    ∃ j u t, Host.Core.run Sys2Proof.core (3 + 2 * s.snap.iter.toNat * b) s =
      .next (loopState v s phaseU1 (BitVec.ofNat 32 (b + 1)) j u t (jobMem v s b)) := by
  induction b with
  | zero => exact ⟨s.j, s.u, s.t, by rw [jobMem_zero]; exact h.run_to_firstBlock⟩
  | succ b ih =>
    obtain ⟨j, u, t, hrun⟩ := ih (by omega)
    have hi := h.toNat_blockIndex (b := b) (by omega)
    have hne : BitVec.ofNat 32 (b + 1) ≠ BitVec.ofNat 32 (jobBlocks v s) := fun he => by
      have hn := congrArg BitVec.toNat he
      rw [hi, BitVec.toNat_ofNat, Nat.mod_eq_of_lt h.jobBlocks_lt] at hn
      omega
    have hblock := h.run_block (b := b) (by omega) j u t
    rw [blockDone, nextBlock_loopState_of_ne hne, hi] at hblock
    rw [Nat.mul_succ, ← Nat.add_assoc]
    exact ⟨_, _, _, (run_add hrun).trans hblock⟩

/-- The run up to FINISH, all blocks written. -/
theorem LeftAlone.run_to_finish (h : LeftAlone v s) :
    ∃ u t, Host.Core.run Sys2Proof.core (3 + 2 * s.snap.iter.toNat * jobBlocks v s) s =
      .next (loopState v s phaseFinish (BitVec.ofNat 32 (jobBlocks v s)) s.snap.iter u t
        (jobMem v s (jobBlocks v s))) := by
  obtain ⟨b, hb⟩ : ∃ b, b + 1 = jobBlocks v s := ⟨_, Nat.sub_add_cancel h.jobBlocks_pos⟩
  obtain ⟨j, u, t, hrun⟩ := h.run_to_block (b := b) (by omega)
  have hblock := h.run_block (b := b) (by omega) j u t
  rw [blockDone, nextBlock_loopState_of_eq (congrArg _ hb)] at hblock
  rw [← hb, Nat.mul_succ, ← Nat.add_assoc]
  exact ⟨_, _, (run_add hrun).trans hblock⟩

/-- The whole run (R85, R91). -/
theorem LeftAlone.run_to_end (h : LeftAlone v s) :
    Host.Core.run Sys2Proof.core (4 + 2 * s.snap.iter.toNat * jobBlocks v s) s =
      .next (endState v s) := by
  obtain ⟨u, t, hrun⟩ := h.run_to_finish
  rw [show 4 + 2 * s.snap.iter.toNat * jobBlocks v s =
    3 + 2 * s.snap.iter.toNat * jobBlocks v s + 1 by omega, run_add hrun]
  exact run_next (h.step_loopState (x := .finish) rfl)

/-! ## What the end leaves -/

theorem length_jobOutput_jobBlocks : (jobOutput v s (jobBlocks v s)).length = s.snap.outLen.toNat :=
  length_pbkdf2 ..

/-- The output range holds PBKDF2 (R2). -/
theorem LeftAlone.readBytes_endState (h : LeftAlone v s) :
    (endState v s).mem.readBytes s.snap.outAddr.toNat s.snap.outLen.toNat =
      pbkdf2 (cores s) v (jobPassword s) (jobSalt s) s.snap.iter.toNat s.snap.outLen.toNat := by
  have hlen := length_jobOutput_jobBlocks (v := v) (s := s)
  have hread := Memory.readBytes_writeBytes (jobOutput v s (jobBlocks v s)) s.mem s.snap.outAddr.toNat
    (hlen.symm ▸ h.output_le) h.memory
  rw [hlen] at hread
  exact hread

/-- Memory outside the output range is as before (R90). -/
theorem LeftAlone.readByte_endState (h : LeftAlone v s) {a : Nat}
    (ha : s.snap.outRange.contains a = false) :
    (endState v s).mem.readByte a = s.mem.readByte a := by
  have hlen := length_jobOutput_jobBlocks (v := v) (s := s)
  have hout : ¬(s.snap.outAddr.toNat ≤ a ∧ a < s.snap.outAddr.toNat + s.snap.outLen.toNat) :=
    of_decide_eq_false ha
  exact (Memory.readByte_writeBytes _ _ _ _ (hlen.symm ▸ h.output_le) h.memory).trans
    (if_neg (hlen.symm ▸ hout))

/-- A read of STATUS that shows DONE on an idle engine ends the ownership of every output, so what is
not recorded is specified (R126, R129). -/
theorem hostAccess_status_of_done {t : State} (hi : t.phase = phaseIdle) (hd : t.done = true) :
    ∃ r, hostAccess ⟨t.platform.regBase + 0x08, 4, false, 0⟩ t = .next r ∧
      r.reply = some ⟨some (statusWord t), .ok⟩ ∧ r.mem = t.mem ∧
      ∀ a, recorded t.unspecified a = false → r.specified a = true := by
  have hoff : windowOffset t.platform.regBase (t.platform.regBase + 0x08) = some 0x08#6 := by
    rw [windowOffset, if_pos (by simp only [Config.regWindow]; omega), Nat.add_sub_cancel_left]
  refine ⟨{ t with reply := some ⟨some (statusWord t), .ok⟩, unseen := [] }, ?_, rfl, rfl, ?_⟩
  · simp [hostAccess, hoff, windowAccess, portAccepts, noteRead_eq, readOffset, regAt, readReg, hd]
  · intro a ha
    simp [State.specified, ownsOutput_eq, State.busy, hi, ha]

end

/-- Settles O58: the run of the derivation left alone, block by block, and what its end holds. -/
theorem derivationComputesPbkdf2 : Obligations.DerivationComputesPbkdf2 := by
  intro s v n hphase hvar hwaiting hpending hbus hdisturbed hmemory hunrecorded hiter houtLen hranges hn
  have h : LeftAlone v s := ⟨hphase, hvar, hwaiting, hpending, hbus, hdisturbed, hmemory, hunrecorded,
    hiter, houtLen, hranges⟩
  obtain rfl : n = jobBlocks v s := hn
  obtain ⟨u, t, hfinish⟩ := h.run_to_finish
  obtain ⟨r, hread, hreply, hmem, hspecified⟩ := hostAccess_status_of_done (t := endState v s) rfl rfl
  exact ⟨⟨_, hfinish, rfl⟩, endState v s, h.run_to_end, rfl, rfl, rfl, hvar,
    (BitVec.toNat_ofNat _ _).trans (Nat.mod_eq_of_lt h.jobBlocks_lt), rfl, h.readBytes_endState,
    fun a => h.readByte_endState, hunrecorded, r, hread, hreply, hmem,
    fun a ha => hspecified a (hunrecorded a ha)⟩

end Sys2Proof.Machine

/-! PROOFS of family 10_state. How an access reaches a register, that every step keeps the machine's
invariant and, under it, goes on, and what each access of the register port does. -/

namespace Sys2Proof.Machine

/-! ## Which instructions the two decoders reach -/

/-- R63: a command word decodes to a command. -/
theorem format_of_decodeCmd_ok {w : Word} {i : Instr} (h : decodeCmd w = .ok i) : i.format = .cmd := by
  unfold decodeCmd at h
  repeat' split at h
  all_goals cases h <;> rfl

/-- R65: a phase decodes to the micro-operation it is the code of. -/
theorem encode_of_decodeUop_ok {c : BitVec 4} {i : Instr} (h : decodeUop c = .ok i) :
    .uop c = encode i := by
  have hall : ∀ c : BitVec 4, (decodeUop c).toOption.all (fun i => .uop c = encode i) = true := by
    decide
  simpa [h, Except.toOption] using hall c

/-- R65: the codes 0x0 to 0x8 all name a micro-operation. -/
theorem decodeUop_ok_of_le_eight {c : BitVec 4} (hc : c.toNat ≤ 8) : ∃ i, decodeUop c = .ok i := by
  have hall : ∀ c : BitVec 4, c.toNat ≤ 8 → (decodeUop c).toBool = true := by decide
  have hok := hall c hc
  cases h : decodeUop c with
  | ok i => exact ⟨i, rfl⟩
  | error e => rw [h] at hok; cases hok

section
variable {s s' : State} {i : Instr}

/-- R97, R99: a command that decodes does nothing, or is a DERIVE. -/
theorem exec_of_format_cmd (hf : i.format = .cmd) (s : State) :
    exec i s = .next s ∨ ∃ v, exec i s = derive v s := by
  cases i with
  | nop => exact .inl rfl
  | deriveSha1 => exact .inr ⟨.sha1, rfl⟩
  | deriveSha256 => exact .inr ⟨.sha256, rfl⟩
  | deriveSha512 => exact .inr ⟨.sha512, rfl⟩
  | _ => cases hf

/-- A DERIVE goes on, dropped or accepted (R97). -/
theorem derive_eq (v : Variant) (s : State) :
    derive v s = .next (if s.busy then dropCommand s else accept v s) := by
  unfold derive
  split <;> rfl

/-- A word written to CMD is presented and the access goes on, whatever the word is (R97). -/
theorem presentCommand_cases (w : Word) (s : State) :
    presentCommand w s = .next s ∨ (∃ v, presentCommand w s = derive v s) ∨
      presentCommand w s = .next (illegalCommand s) := by
  unfold presentCommand
  split
  · next i hd =>
    rcases exec_of_format_cmd (format_of_decodeCmd_ok hd) s with h | h
    · exact .inl h
    · exact .inr (.inl h)
  · exact .inr (.inr rfl)

/-- A command word at CMD runs the command it decodes to (R27, R97). -/
theorem presentCommand_of_decodeCmd_ok {w : Word} (hd : decodeCmd w = .ok i) (s : State) :
    presentCommand w s = exec i s := by
  simp only [presentCommand, hd]

/-! ## Accesses of the register port -/

/-- R19: an address inside the window has its offset. -/
theorem windowOffset_add {off : Nat} (base : Nat) (h : off < 0x40) :
    windowOffset base (base + off) = some (BitVec.ofNat 6 off) := by
  rw [windowOffset, if_pos (by simp only [Config.regWindow]; omega), Nat.add_sub_cancel_left]

/-- An access inside the window (R19). -/
theorem hostAccess_window {off : Nat} (h : off < 0x40) (size : Nat) (write : Bool) (w : Word)
    (s : State) : hostAccess ⟨s.platform.regBase + off, size, write, w⟩ s =
      windowAccess (BitVec.ofNat 6 off) ⟨s.platform.regBase + off, size, write, w⟩ s := by
  simp only [hostAccess, windowOffset_add _ h]

/-- R20: what is taken, in terms of the offset as a number. -/
theorem portAccepts_ofNat {off : Nat} (size : Nat) (h : off < 0x40) :
    portAccepts (BitVec.ofNat 6 off) size = decide (size = 4 ∧ off % 4 = 0) := by
  have halign : ∀ k < 0x40, ((BitVec.ofNat 6 k).extractLsb 1 0 == 0#2) = decide (k % 4 = 0) := by
    decide
  rw [portAccepts, halign off h, Bool.decide_and]

/-- R20: another access gets ERR and changes nothing. -/
theorem hostAccess_refused {off size : Nat} (h : off < 0x40) (hx : size ≠ 4 ∨ off % 4 ≠ 0)
    (write : Bool) (w : Word) (s : State) :
    hostAccess ⟨s.platform.regBase + off, size, write, w⟩ s =
      .next { s with reply := some ⟨some 0, .err⟩ } := by
  rw [hostAccess_window h, windowAccess, portAccepts_ofNat _ h,
    if_neg (by simpa using fun hs => hx.resolve_left (not_not_intro hs))]
  rfl

/-- R19, R20: an aligned word write takes effect at its offset and is answered OK. -/
theorem hostAccess_write {off : Nat} (h : off < 0x40) (h4 : off % 4 = 0) (w : Word) (s : State) :
    hostAccess ⟨s.platform.regBase + off, 4, true, w⟩ s =
      writeOffset (BitVec.ofNat 6 off) w { s with reply := some ⟨none, .ok⟩ } := by
  rw [hostAccess_window h, windowAccess, portAccepts_ofNat _ h,
    if_pos (by rw [decide_eq_true_eq]; exact ⟨rfl, h4⟩)]
  rfl

/-- Only at 0x08 stands STATUS (R22). -/
theorem regAt_eq_status {off : Nat} (h : off < 0x40) :
    regAt (BitVec.ofNat 6 off) = some .status ↔ off = 0x08 := by
  have : ∀ k < 0x40, regAt (BitVec.ofNat 6 k) = some .status ↔ k = 0x08 := by decide
  exact this off h

/-- R19, R20, R126: an aligned word read is answered OK with what stands at its offset; the host may
see DONE by it. -/
theorem hostAccess_read {off : Nat} (h : off < 0x40) (h4 : off % 4 = 0) (w : Word) (s : State) :
    hostAccess ⟨s.platform.regBase + off, 4, false, w⟩ s = .next { s with
      reply := some ⟨some (readOffset (BitVec.ofNat 6 off) s), .ok⟩
      unseen := if off = 0x08 ∧ s.done = true then [] else s.unseen } := by
  rw [hostAccess_window h, windowAccess, portAccepts_ofNat _ h,
    if_pos (by rw [decide_eq_true_eq]; exact ⟨rfl, h4⟩)]
  simp only [Bool.false_eq_true, if_false, noteRead_eq, regAt_eq_status h]

/-- A write of CMD keeps the reply that the access has put there. -/
theorem presentCommand_next (w : Word) (s : State) :
    ∃ t, presentCommand w s = .next t ∧ t.reply = s.reply := by
  rcases presentCommand_cases w s with h | ⟨v, h⟩ | h
  · exact ⟨s, h, rfl⟩
  · refine ⟨_, h.trans (derive_eq v s), ?_⟩
    split <;> rfl
  · refine ⟨_, h, ?_⟩
    unfold illegalCommand
    split <;> rfl

/-- A register write goes on and keeps the reply that the access has put there. -/
theorem writeReg_next (r : Reg) (w : Word) (s : State) :
    ∃ t, writeReg r w s = .next t ∧ t.reply = s.reply := by
  cases r with
  | cmd => exact presentCommand_next w s
  | ctrl =>
    refine ⟨_, rfl, ?_⟩
    unfold writeCtrl
    split <;> rfl
  | _ => exact ⟨_, rfl, rfl⟩

theorem writeOffset_next (off : BitVec 6) (w : Word) (s : State) :
    ∃ t, writeOffset off w s = .next t ∧ t.reply = s.reply := by
  unfold writeOffset
  split
  · exact writeReg_next _ w s
  · exact ⟨s, rfl, rfl⟩

/-- Every access of the host goes on (R19 to R21). -/
theorem hostAccess_next (a : Access) (s : State) : ∃ t, hostAccess a s = .next t := by
  unfold hostAccess windowAccess
  split
  · split
    · split
      · obtain ⟨t, ht, -⟩ := writeOffset_next _ a.wdata { s with reply := some ⟨none, .ok⟩ }
        exact ⟨t, ht⟩
      · exact ⟨_, rfl⟩
    · exact ⟨_, rfl⟩
  · exact ⟨s, rfl⟩

/-! ## Every step keeps the invariant -/

theorem inv_presentCommand (h : Inv s) (w : Word) (he : presentCommand w s = .next s') : Inv s' := by
  rcases presentCommand_cases w s with hc | ⟨v, hc⟩ | hc
  · rw [hc] at he; cases he; exact h
  · exact inv_derive h v (hc.symm.trans he)
  · rw [hc] at he; cases he; exact inv_illegalCommand h

theorem inv_writeReg (h : Inv s) (r : Reg) (w : Word) (he : writeReg r w s = .next s') : Inv s' := by
  have hregs : ∀ p : Params, Inv { s with regs := p } := fun p =>
    inv_host_fields h s.ie s.ovr p s.pending s.reply
  cases r with
  | cmd => exact inv_presentCommand h w he
  | status => cases he; exact inv_clearStatus h w
  | ctrl =>
    cases he
    unfold writeCtrl
    split
    · exact inv_resetEngine h.memory
    · exact inv_host_fields h _ s.ovr s.regs s.pending s.reply
  | id | blkIdx | iterCnt | errAddr => cases he; exact h
  | _ => cases he; exact hregs _

theorem inv_writeOffset (h : Inv s) (off : BitVec 6) (w : Word) (he : writeOffset off w s = .next s') :
    Inv s' := by
  unfold writeOffset at he
  split at he
  · exact inv_writeReg h _ w he
  · cases he; exact h

/-- Every access of the host keeps the invariant (R26, R106). -/
theorem inv_hostAccess (h : Inv s) (a : Access) (he : hostAccess a s = .next s') : Inv s' := by
  have hreply : ∀ r : Option Reply, Inv { s with reply := r } := fun r =>
    inv_host_fields h s.ie s.ovr s.regs s.pending r
  unfold hostAccess windowAccess at he
  split at he
  · split at he
    · split at he
      · exact inv_writeOffset (hreply _) _ _ he
      · cases he; exact inv_noteRead (hreply _) _
    · cases he; exact hreply _
  · cases he; exact h

/-- A micro-operation run in its own phase keeps the invariant (R85). -/
theorem inv_exec_uop (h : Inv s) (hw : s.waiting = false) (hi : .uop s.phase = encode i)
    (he : exec i s = .next s') : Inv s' := by
  cases i with
  | nop | deriveSha1 | deriveSha256 | deriveSha512 => cases hi
  | idle => cases he; exact h
  | check => exact inv_execCheck h hw (Code.uop.inj hi) he
  | keyload => exact inv_execKeyload h hw (Code.uop.inj hi) he
  | precomp => exact inv_execPrecomp h hw (Code.uop.inj hi) he
  | u1 => exact inv_execU1 h hw (Code.uop.inj hi) he
  | uiter => exact inv_execUiter h hw (Code.uop.inj hi) he
  | xoracc => exact inv_execXoracc h hw (Code.uop.inj hi) he
  | writeout => exact inv_execWriteout h hw (Code.uop.inj hi) he
  | finish => exact inv_execFinish h hw (Code.uop.inj hi) he

/-- The engine's turn keeps the invariant, also while it waits (R85, U12). -/
theorem inv_engineTurn (h : Inv s) (he : engineTurn s = .next s') : Inv s' := by
  cases hw : s.waiting with
  | true => rw [engineTurn_of_waiting hw] at he; cases he; exact h
  | false =>
    cases hd : decodeUop s.phase with
    | ok i =>
      rw [engineTurn_of_decodeUop_ok hw hd] at he
      exact inv_exec_uop h hw (encode_of_decodeUop_ok hd) he
    | error e => rw [engineTurn_of_decodeUop_error hw hd] at he; cases he

/-- Whatever event is performed keeps the invariant (R8). -/
theorem inv_perform (h : Inv s) (e : Event) (he : perform e s = .next s') : Inv s' := by
  cases e with
  | engine => exact inv_engineTurn h he
  | port a => exact inv_hostAccess h a he
  | store a x => exact inv_agentStore h he
  | hardReset => cases he; exact inv_resetEngine h.memory

/-! ## Under the invariant every step goes on -/

/-- A byte string inside memory is read, whatever the memory answers (R46, R112, U12). -/
theorem withString_goes_on {addr len : Word} {rest : List Byte → State → Result}
    (hr : (⟨addr.toNat, len.toNat⟩ : Range).wraps = false)
    (hrest : ∀ x s', ∃ t, rest x s' = .next t) : ∃ t, withString addr len s rest = .next t := by
  unfold withString
  split
  · exact hrest _ _
  · next hlen =>
    rw [if_neg (Nat.not_lt.mpr (wraps_false hr (one_le_toNat hlen)))]
    split
    · exact hrest _ _
    · exact ⟨_, rfl⟩
    · exact ⟨_, rfl⟩

/-- A store inside memory is made, whatever the memory answers (R47, R112, U12). -/
theorem withWrite_goes_on {a n : Nat} {x : List Byte} {rest : State → Result}
    (h : a + n ≤ Config.memorySpace) (hrest : ∀ s', ∃ t, rest s' = .next t) :
    ∃ t, withWrite a n x s rest = .next t := by
  unfold withWrite
  rw [if_neg (Nat.not_lt.mpr h)]
  split
  · exact hrest _
  · exact ⟨_, rfl⟩
  · exact ⟨_, rfl⟩

/-- A block that starts inside an output range that exists ends inside memory (R93). -/
theorem blockRange_le {v : Variant} (hr : s.snap.outRange.wraps = false)
    (ho : blockOffset v s.i < s.snap.outLen.toNat) :
    (blockRange v s).start + (blockRange v s).len ≤ Config.memorySpace := by
  have hend : s.snap.outAddr.toNat + s.snap.outLen.toNat ≤ Config.memorySpace :=
    wraps_false hr (by simp only [Params.outRange]; omega)
  simp only [blockRange]
  omega

/-- CHECK of a running derivation ends one way or the other (R86). -/
theorem execCheck_goes_on (h : Inv s) (hp : s.phase = phaseCheck) : ∃ t, execCheck s = .next t := by
  obtain ⟨v, hv, -⟩ := h.running (by simp [hp])
  rw [execCheck, withVariant_some hv]
  split
  · exact ⟨_, rfl⟩
  · dsimp only
    split
    · exact ⟨_, rfl⟩
    · exact ⟨_, rfl⟩

/-- CHECK has seen that the password exists, so KEYLOAD can read it (R46, R79). -/
theorem execKeyload_goes_on (h : Inv s) (hp : s.phase = phaseKeyload) :
    ∃ t, execKeyload s = .next t := by
  obtain ⟨v, hv, hd⟩ := h.running (by simp [hp])
  obtain ⟨-, hpw, -⟩ := checkRanges_none (hd.checked (by simp [hp])).rangesLegal
  rw [execKeyload, withVariant_some hv]
  exact withString_goes_on hpw fun _ _ => ⟨_, rfl⟩

/-- In PRECOMP the key is held (R37). -/
theorem execPrecomp_goes_on (h : Inv s) (hp : s.phase = phasePrecomp) :
    ∃ t, execPrecomp s = .next t := by
  obtain ⟨v, hv, -⟩ := h.running (by simp [hp])
  obtain ⟨k, hk⟩ := Option.ne_none_iff_exists'.mp (h.keyHeld.mpr hp)
  exact ⟨_, execPrecomp_of_some hv hk⟩

/-- In U1 the key states are held, and CHECK has seen that the salt exists (R38, R46, R87). -/
theorem execU1_goes_on (h : Inv s) (hp : s.phase = phaseU1) : ∃ t, execU1 s = .next t := by
  obtain ⟨v, hv, hd⟩ := h.running (by simp [hp])
  obtain ⟨-, -, hsalt, -⟩ := checkRanges_none (hd.checked (by simp [hp])).rangesLegal
  obtain ⟨⟨ipad, hi, -⟩, ⟨opad, ho, -⟩⟩ := hd.keyStates (by simp [hp])
  rw [execU1, withVariant_some hv, hi, ho, withValue_some, withValue_some]
  exact withString_goes_on hsalt fun _ _ => ⟨_, rfl⟩

/-- In UITER the key states and U are held (R38, R39). -/
theorem execUiter_goes_on (h : Inv s) (hp : s.phase = phaseUiter) : ∃ t, execUiter s = .next t := by
  obtain ⟨v, hv, hd⟩ := h.running (by simp [hp])
  obtain ⟨⟨ipad, hi, -⟩, ⟨opad, ho, -⟩⟩ := hd.keyStates (by simp [hp])
  obtain ⟨⟨u, hu, -⟩, -⟩ := hd.values (by simp [hp])
  exact ⟨_, execUiter_of_some hv hi ho hu rfl⟩

/-- In XORACC U and T are held (R39). -/
theorem execXoracc_goes_on (h : Inv s) (hp : s.phase = phaseXoracc) : ∃ t, execXoracc s = .next t := by
  obtain ⟨v, -, hd⟩ := h.running (by simp [hp])
  obtain ⟨⟨u, hu, -⟩, ⟨t, ht, -⟩⟩ := hd.values (by simp [hp])
  exact ⟨_, execXoracc_of_some ht hu⟩

/-- In WRITEOUT T is held, and the block lies in an output range that exists (R39, R47, R93). -/
theorem execWriteout_goes_on (h : Inv s) (hp : s.phase = phaseWriteout) :
    ∃ t, execWriteout s = .next t := by
  obtain ⟨v, hv, hd⟩ := h.running (by simp [hp])
  have hch := hd.checked (by simp [hp])
  obtain ⟨-, -, -, hout, -⟩ := checkRanges_none hch.rangesLegal
  obtain ⟨hfirst, hlast⟩ := hd.blockIndex (by simp [hp])
  obtain ⟨-, ⟨t, ht, -⟩⟩ := hd.values (by simp [hp])
  have hoff : blockOffset v s.i < s.snap.outLen.toNat := blockOffset_lt hfirst (hch.blocks ▸ hlast)
  have hi : s.i ≠ 0 := fun h0 => by simp [h0] at hfirst
  rw [execWriteout, withVariant_some hv, ht, withValue_some,
    if_neg (not_or.mpr ⟨hi, Nat.not_le.mpr hoff⟩)]
  exact withWrite_goes_on (blockRange_le hout hoff) fun _ => ⟨_, rfl⟩

/-- A micro-operation run in its own phase under the invariant goes on (R37 to R39, R46, R47). -/
theorem exec_uop_goes_on (h : Inv s) (hi : .uop s.phase = encode i) : ∃ t, exec i s = .next t := by
  cases i with
  | nop | deriveSha1 | deriveSha256 | deriveSha512 => cases hi
  | idle | finish => exact ⟨_, rfl⟩
  | check => exact execCheck_goes_on h (Code.uop.inj hi)
  | keyload => exact execKeyload_goes_on h (Code.uop.inj hi)
  | precomp => exact execPrecomp_goes_on h (Code.uop.inj hi)
  | u1 => exact execU1_goes_on h (Code.uop.inj hi)
  | uiter => exact execUiter_goes_on h (Code.uop.inj hi)
  | xoracc => exact execXoracc_goes_on h (Code.uop.inj hi)
  | writeout => exact execWriteout_goes_on h (Code.uop.inj hi)

/-- Under the invariant the engine's turn goes on (R65, R85, U12). -/
theorem engineTurn_goes_on (h : Inv s) : ∃ t, engineTurn s = .next t := by
  cases hw : s.waiting with
  | true => exact ⟨s, engineTurn_of_waiting hw⟩
  | false =>
    obtain ⟨i, hd⟩ := decodeUop_ok_of_le_eight h.phaseLegal
    rw [engineTurn_of_decodeUop_ok hw hd]
    exact exec_uop_goes_on h (encode_of_decodeUop_ok hd)

/-- Under the invariant every event goes on, but for a store outside memory (R45). -/
theorem perform_goes_on (h : Inv s) (e : Event)
    (hstore : ∀ a x, e = .store a x → a + x.length ≤ Config.memorySpace) :
    ∃ t, perform e s = .next t := by
  cases e with
  | engine => exact engineTurn_goes_on h
  | port a => exact hostAccess_next a s
  | store a x =>
    rw [perform, agentStore, if_neg (Nat.not_lt.mpr (hstore a x rfl))]
    exact ⟨_, rfl⟩
  | hardReset => exact ⟨_, rfl⟩

end

/-- The invariant does not look at the events to come (R8). -/
theorem inv_pending {s : State} (h : Inv s) (rest : List Event) : Inv { s with pending := rest } :=
  inv_host_fields h s.ie s.ovr s.regs rest s.reply

/-- Settles O55: the engine's turn alone, or the next event on the state with it taken. -/
theorem everyStepKeepsTheInvariant : Obligations.EveryStepKeepsTheInvariant := by
  intro s t h hstep
  cases hp : s.pending with
  | nil => exact inv_engineTurn h ((step_of_pending_nil hp).symm.trans hstep)
  | cons e rest =>
    exact inv_perform (inv_pending h rest) e ((step_of_pending_cons hp).symm.trans hstep)

/-- Settles O56: the engine's turn alone, or the next event on the state with it taken. -/
theorem noStepFaultsUnderTheInvariant : Obligations.NoStepFaultsUnderTheInvariant := by
  intro s h hstore
  cases hp : s.pending with
  | nil =>
    rw [step_of_pending_nil hp]
    exact engineTurn_goes_on h
  | cons e rest =>
    rw [step_of_pending_cons hp]
    refine perform_goes_on (inv_pending h rest) e fun a x he => hstore a x rest ?_
    rw [hp, he]

/-! ## What an instruction leaves of the host's side -/

/-- What the host and the platform have put around the engine, and the snapshot. -/
structure HostSide where
  regs : Params
  ie : Bool
  platform : Platform
  pending : List Event
  reply : Option Reply
  snap : Params

/-- The host's side of a state. -/
def hostSide (s : State) : HostSide := ⟨s.regs, s.ie, s.platform, s.pending, s.reply, s.snap⟩

section
variable {s s' : State} {i : Instr}

theorem hostSide_nextBlock (s : State) : hostSide (nextBlock s) = hostSide s := by
  unfold nextBlock
  split <;> rfl

theorem hostSide_outputOf (w : Range) (x : List Byte) (s : State) :
    hostSide (outputOf w x s).2 = hostSide s := by
  unfold outputOf
  split <;> rfl

/-- A read keeps the host's side, if the rest of the micro-operation does. -/
theorem hostSide_withString {addr len : Word} {rest : List Byte → State → Result}
    (h : withString addr len s rest = .next s')
    (hrest : ∀ x u, rest x u = .next s' → hostSide s' = hostSide u) : hostSide s' = hostSide s := by
  rcases withString_next h with ⟨-, h⟩ | ⟨-, -, ⟨-, h⟩ | ⟨k, l, -, rfl⟩ | ⟨l, -, rfl⟩⟩
  · exact hrest [] s h
  · exact hrest _ (popAnswer s) h
  · rfl
  · rfl

/-- A write keeps the host's side, if the rest of the micro-operation does. -/
theorem hostSide_withWrite {a n : Nat} {x : List Byte} {rest : State → Result}
    (h : withWrite a n x s rest = .next s')
    (hrest : ∀ u, rest u = .next s' → hostSide s' = hostSide u) : hostSide s' = hostSide s := by
  obtain ⟨-, ⟨-, h⟩ | ⟨k, l, -, rfl⟩ | ⟨l, -, rfl⟩⟩ := withWrite_next h
  · exact hrest { popAnswer s with mem := s.mem.writeBytes a x } h
  · rfl
  · rfl

/-- A DERIVE touches the snapshot only, and only when it is accepted (R103, R105). -/
theorem hostSide_derive {v : Variant} (h : derive v s = .next s') :
    hostSide s' = hostSide s ∨
      s.busy = false ∧ hostSide s' = { hostSide s with snap := s.regs } := by
  rw [derive_eq] at h
  cases hb : s.busy <;> rw [hb] at h <;> cases h
  · exact .inr ⟨rfl, rfl⟩
  · exact .inl rfl

/-- CHECK keeps the host's side, passed or not (R86). -/
theorem hostSide_execCheck (h : execCheck s = .next s') : hostSide s' = hostSide s := by
  unfold execCheck at h
  split at h
  · cases h; rfl
  · obtain ⟨v, -, h⟩ := withVariant_next h
    split at h <;> cases h <;> rfl

/-- WRITEOUT keeps the host's side, raced or not (R90). -/
theorem hostSide_execWriteout (h : execWriteout s = .next s') : hostSide s' = hostSide s := by
  obtain ⟨v, -, h⟩ := withVariant_next h
  obtain ⟨x, -, h⟩ := withValue_next h
  split at h
  · cases h
  · refine (hostSide_withWrite h fun u hu => ?_).trans (hostSide_outputOf _ _ s)
    cases hu
    exact hostSide_nextBlock u

/-- No micro-operation touches the host's side. -/
theorem hostSide_exec_uop (hf : i.format = .uop) (h : exec i s = .next s') :
    hostSide s' = hostSide s := by
  cases i with
  | nop | deriveSha1 | deriveSha256 | deriveSha512 => cases hf
  | idle | finish => cases h; rfl
  | check => exact hostSide_execCheck h
  | keyload =>
    obtain ⟨v, -, h⟩ := withVariant_next h
    exact hostSide_withString h fun x u hu => by cases hu; rfl
  | precomp =>
    obtain ⟨v, -, h⟩ := withVariant_next h
    obtain ⟨k, -, h⟩ := withValue_next h
    cases h; rfl
  | u1 =>
    obtain ⟨v, -, h⟩ := withVariant_next h
    obtain ⟨ipad, -, h⟩ := withValue_next h
    obtain ⟨opad, -, h⟩ := withValue_next h
    exact hostSide_withString h fun x u hu => by cases hu; rfl
  | uiter =>
    obtain ⟨v, -, h⟩ := withVariant_next h
    obtain ⟨ipad, -, h⟩ := withValue_next h
    obtain ⟨opad, -, h⟩ := withValue_next h
    obtain ⟨u, -, h⟩ := withValue_next h
    cases h; rfl
  | xoracc =>
    obtain ⟨t, -, h⟩ := withValue_next h
    obtain ⟨u, -, h⟩ := withValue_next h
    cases h; rfl
  | writeout => exact hostSide_execWriteout h

/-- An instruction keeps the host's side, but for the snapshot that an accepted DERIVE takes. -/
theorem hostSide_exec (h : exec i s = .next s') : hostSide s' = hostSide s ∨
    i ∈ [Instr.deriveSha1, .deriveSha256, .deriveSha512] ∧ s.busy = false ∧
      hostSide s' = { hostSide s with snap := s.regs } := by
  cases i with
  | nop => cases h; exact .inl rfl
  | deriveSha1 => exact (hostSide_derive h).imp_right fun hd => ⟨by decide, hd⟩
  | deriveSha256 => exact (hostSide_derive h).imp_right fun hd => ⟨by decide, hd⟩
  | deriveSha512 => exact (hostSide_derive h).imp_right fun hd => ⟨by decide, hd⟩
  | _ => exact .inl (hostSide_exec_uop rfl h)

end

/-- Settles O47: the host's side is kept, or kept but for the snapshot. -/
theorem instructionsLeaveTheHostsRegisters : Obligations.InstructionsLeaveTheHostsRegisters := by
  intro i s t h
  rcases hostSide_exec h with hside | ⟨hi, hb, hside⟩
  · obtain ⟨hregs, hie, hplatform, hpending, hreply, hsnap⟩ := HostSide.mk.inj hside
    exact ⟨hregs, hie, hplatform, hpending, hreply, .inl hsnap⟩
  · obtain ⟨hregs, hie, hplatform, hpending, hreply, hsnap⟩ := HostSide.mk.inj hside
    exact ⟨hregs, hie, hplatform, hpending, hreply, .inr ⟨hi, hb, hsnap⟩⟩

/-! ## Absent elements -/

/-- R9: without a variant there are no parameters to take. -/
theorem withVariant_none {s : State} {rest : Variant → Result} (h : s.var = none) :
    withVariant s rest = .fault .noVariant := by
  simp only [withVariant, h]

/-- R37: reading an absent element is a fault. -/
theorem withValue_none {α : Type} (slot : Slot) (rest : α → Result) :
    withValue slot none rest = .fault (.absentValue slot) := rfl

/-- Settles O32: each micro-operation reads the variant and then its elements in the order of its
rule. -/
theorem absentValuesFault : Obligations.AbsentValuesFault := by
  intro s
  simp only [List.mem_cons, List.not_mem_nil, or_false, forall_eq_or_imp, forall_eq]
  refine ⟨fun hv => ⟨fun hc => ?_, ?_⟩, fun hv => ?_, fun ht => ?_, fun ht hu => ?_⟩
  · rw [exec, execCheck, if_neg hc, withVariant_none hv]
  · exact ⟨withVariant_none hv, withVariant_none hv, withVariant_none hv, withVariant_none hv,
      withVariant_none hv⟩
  · obtain ⟨v, hv⟩ := Option.ne_none_iff_exists'.mp hv
    refine ⟨fun hk => ?_, fun hi => ⟨?_, ?_⟩, fun hi ho => ?_, fun hi ho hu => ?_, fun ht => ?_⟩
    · rw [exec, execPrecomp, withVariant_some hv, hk, withValue_none]
    · rw [exec, execU1, withVariant_some hv, hi, withValue_none]
    · rw [exec, execUiter, withVariant_some hv, hi, withValue_none]
    · obtain ⟨ipad, hi⟩ := Option.ne_none_iff_exists'.mp hi
      constructor
      · rw [exec, execU1, withVariant_some hv, hi, ho, withValue_some, withValue_none]
      · rw [exec, execUiter, withVariant_some hv, hi, ho, withValue_some, withValue_none]
    · obtain ⟨ipad, hi⟩ := Option.ne_none_iff_exists'.mp hi
      obtain ⟨opad, ho⟩ := Option.ne_none_iff_exists'.mp ho
      rw [exec, execUiter, withVariant_some hv, hi, ho, hu, withValue_some, withValue_some,
        withValue_none]
    · rw [exec, execWriteout, withVariant_some hv, ht, withValue_none]
  · rw [exec, execXoracc, ht, withValue_none]
  · obtain ⟨t, ht⟩ := Option.ne_none_iff_exists'.mp ht
    rw [exec, execXoracc, ht, withValue_some, hu, withValue_none]

/-! ## The fields of STATUS -/

/-- The value of a word that is put together from two. -/
theorem toNat_append_eq {m n : Nat} (x : BitVec m) (y : BitVec n) :
    (x ++ y).toNat = x.toNat * 2 ^ n + y.toNat := by
  rw [BitVec.toNat_append, ← Nat.shiftLeft_add_eq_or_of_lt y.isLt, Nat.shiftLeft_eq]

/-- A bit of a word, read off its value. -/
theorem getLsbD_eq_of_div_mod {n k : Nat} {w : BitVec n} {b : Bool}
    (h : w.toNat / 2 ^ k % 2 = b.toNat) : w.getLsbD k = b := by
  rw [← BitVec.testBit_toNat, Nat.testBit_eq_decide_div_mod_eq, h]
  cases b <;> rfl

/-- A field of a word, read off its value. -/
theorem extractLsb'_eq_of_div_mod {n k l : Nat} {w : BitVec n} {x : BitVec l}
    (h : w.toNat / 2 ^ k % 2 ^ l = x.toNat) : w.extractLsb' k l = x := by
  rw [← BitVec.toNat_inj, BitVec.extractLsb'_toNat, Nat.shiftRight_eq_div_pow, h]

/-- R25: STATUS as a number, field by field. -/
theorem toNat_statusWord (s : State) : (statusWord s).toNat =
    (variantCode s.var).toNat * 2 ^ 12 + s.phase.toNat * 2 ^ 8 + (errorCode s.errcode).toNat * 2 ^ 4 +
      s.ovr.toNat * 2 ^ 3 + s.err.toNat * 2 ^ 2 + s.done.toNat * 2 + s.busy.toNat := by
  unfold statusWord
  iterate 7 rw [toNat_append_eq]
  simp only [BitVec.toNat_ofBool, BitVec.toNat_ofNat]
  omega

/-- Settles O38: every field is a quotient and a remainder of the word's value. -/
theorem statusWordFields : Obligations.StatusWordFields := by
  intro s
  have hword := toNat_statusWord s
  have hvariant := (variantCode s.var).isLt
  have hphase := s.phase.isLt
  have herror := (errorCode s.errcode).isLt
  have hovr := s.ovr.toNat_lt
  have herr := s.err.toNat_lt
  have hdone := s.done.toNat_lt
  have hbusy := s.busy.toNat_lt
  have herrorField : (statusWord s).extractLsb' 4 4 = errorCode s.errcode :=
    extractLsb'_eq_of_div_mod (by omega)
  have hvariantField : (statusWord s).extractLsb' 12 2 = variantCode s.var :=
    extractLsb'_eq_of_div_mod (by omega)
  refine ⟨getLsbD_eq_of_div_mod (b := s.busy) (by omega), getLsbD_eq_of_div_mod (by omega),
    getLsbD_eq_of_div_mod (by omega), getLsbD_eq_of_div_mod (by omega), herrorField.trans ?_,
    extractLsb'_eq_of_div_mod (by omega), hvariantField.trans ?_,
    extractLsb'_eq_of_div_mod (by rw [BitVec.toNat_ofNat]; omega)⟩
  · cases s.errcode <;> rfl
  · cases s.var with
    | none => rfl
    | some v => cases v <;> rfl

/-! ## What each register access does -/

/-- Settles O34: what the port refuses, and that every access it takes goes on with the reply OK. -/
theorem onlyAlignedWordAccessesAreTaken : Obligations.OnlyAlignedWordAccessesAreTaken := by
  intro s off size write w hoff
  refine ⟨fun hx => hostAccess_refused hoff hx write w s, ?_⟩
  rintro rfl h4
  cases write with
  | false => exact ⟨_, hostAccess_read hoff h4 w s, _, rfl⟩
  | true =>
    obtain ⟨t, ht, hreply⟩ :=
      writeOffset_next (BitVec.ofNat 6 off) w { s with reply := some ⟨none, .ok⟩ }
    exact ⟨t, (hostAccess_write hoff h4 w s).trans ht, none, hreply⟩

/-- Settles O5: the access reaches CMD with its reply given, and the decoder runs the command. -/
theorem commandWriteRunsTheDecodedCommand : Obligations.CommandWriteRunsTheDecodedCommand := by
  intro s i w rest hp hd
  rw [step_of_pending_cons hp]
  exact (hostAccess_write (by decide) (by decide) w { s with pending := rest }).trans
    (presentCommand_of_decodeCmd_ok hd _)

/-- CTRL has IE in bit 0 and nothing else (R24). -/
theorem ctrlWord_eq (s : State) : ctrlWord s = if s.ie then 1#32 else 0#32 := by
  unfold ctrlWord
  cases s.ie <;> rfl

/-- Settles O35: the aligned read, register by register. -/
theorem alignedReadFollowsTheMap : Obligations.AlignedReadFollowsTheMap := by
  intro s off v w hm
  have hmap : off < 0x40 ∧ off % 4 = 0 ∧ readOffset (BitVec.ofNat 6 off) s = v := by
    rw [← ctrlWord_eq] at hm
    simp only [List.mem_cons, Prod.mk.injEq, List.not_mem_nil, or_false] at hm
    rcases hm with ⟨rfl, rfl⟩ | ⟨rfl, rfl⟩ | ⟨rfl, rfl⟩ | ⟨rfl, rfl⟩ | ⟨rfl, rfl⟩ | ⟨rfl, rfl⟩ |
      ⟨rfl, rfl⟩ | ⟨rfl, rfl⟩ | ⟨rfl, rfl⟩ | ⟨rfl, rfl⟩ | ⟨rfl, rfl⟩ | ⟨rfl, rfl⟩ | ⟨rfl, rfl⟩ |
      ⟨rfl, rfl⟩ | ⟨rfl, rfl⟩ | ⟨rfl, rfl⟩ <;> exact ⟨by decide, by decide, rfl⟩
  obtain ⟨hoff, h4, rfl⟩ := hmap
  exact hostAccess_read hoff h4 w s

/-- Settles O36: the aligned write, register by register. -/
theorem parameterWriteUpdatesOnlyItsRegister : Obligations.ParameterWriteUpdatesOnlyItsRegister := by
  intro s off w r hm
  have hmap : off < 0x40 ∧ off % 4 = 0 ∧ ∀ u : State, u.regs = s.regs →
      writeOffset (BitVec.ofNat 6 off) w u = .next { u with regs := r } := by
    simp only [List.mem_cons, Prod.mk.injEq, List.not_mem_nil, or_false] at hm
    rcases hm with ⟨rfl, rfl⟩ | ⟨rfl, rfl⟩ | ⟨rfl, rfl⟩ | ⟨rfl, rfl⟩ | ⟨rfl, rfl⟩ | ⟨rfl, rfl⟩ |
      ⟨rfl, rfl⟩ <;> exact ⟨by decide, by decide, fun u hu => by rw [← hu]; rfl⟩
  obtain ⟨hoff, h4, hwrite⟩ := hmap
  exact (hostAccess_write hoff h4 w s).trans (hwrite _ rfl)

/-- Settles O37: the aligned write at each of the offsets. -/
theorem readOnlyWritesAreIgnored : Obligations.ReadOnlyWritesAreIgnored := by
  intro s off w hm
  have hmap : off < 0x40 ∧ off % 4 = 0 ∧ ∀ u, writeOffset (BitVec.ofNat 6 off) w u = .next u := by
    simp only [List.mem_cons, List.not_mem_nil, or_false] at hm
    rcases hm with rfl | rfl | rfl | rfl | rfl | rfl <;> exact ⟨by decide, by decide, fun _ => rfl⟩
  obtain ⟨hoff, h4, hwrite⟩ := hmap
  exact (hostAccess_write hoff h4 w s).trans (hwrite _)

/-- Settles O39: the aligned write reaches STATUS, and a W1C bit clears its field exactly when it
is set. -/
theorem statusWriteClears : Obligations.StatusWriteClears := by
  intro s w
  have hclear : ∀ b x : Bool, (b && !x) = if x then false else b := by decide
  simp only [← hclear]
  exact hostAccess_write (by decide) (by decide) w s

/-- The part of a snapshot's output range that exists (R45). -/
theorem len_inMemory_outRange (p : Params) : p.outRange.inMemory.len =
    min (p.outAddr.toNat + p.outLen.toNat) (2 ^ 32) - p.outAddr.toNat := by
  simp only [Range.inMemory, Range.inter, Params.outRange, Config.memorySpace]
  omega

/-- An output range enters the record unless the output is empty. -/
theorem taint_outRange (p : Params) (l : List Range) :
    taint p.outRange l = if p.outLen = 0 then l else p.outRange :: l := by
  have hlen : p.outRange.len = 0 ↔ p.outLen = 0 := BitVec.toNat_inj (y := 0)
  simp only [taint, hlen]

/-- A running derivation's output is abandoned, free in every byte that exists (U2). -/
theorem abandonOutput_eq (s : State) : abandonOutput s = { s with
    mem := if s.phase = 0#4 then s.mem else s.mem.writeBytes s.snap.outAddr.toNat
      ((List.range (min (s.snap.outAddr.toNat + s.snap.outLen.toNat) (2 ^ 32) -
        s.snap.outAddr.toNat)).map (Config.freeByte s.draws))
    draws := if s.phase = 0#4 then s.draws else s.draws + 1
    unspecified := if s.phase = 0#4 ∨ s.snap.outLen = 0 then s.unspecified
      else s.snap.outRange :: s.unspecified } := by
  by_cases hp : s.phase = 0#4
  · rw [abandonOutput_idle s ((busy_eq_false s).mpr hp), if_pos hp, if_pos hp, if_pos (.inl hp)]
  · rw [abandonOutput, if_pos ((busy_eq_true s).mpr hp), if_neg hp, if_neg hp, taint_outRange,
      inMemory_start, len_inMemory_outRange]
    simp only [hp, false_or]
    rfl

/-- Settles O40: the aligned write reaches CTRL; the soft reset is the reset state with what a reset
leaves alone. -/
theorem ctrlWriteSetsIeOrResets : Obligations.CtrlWriteSetsIeOrResets := by
  intro s w
  refine ⟨ctrlWord_eq s, (hostAccess_write (by decide) (by decide) w s).trans ?_⟩
  have hctrl : ∀ u, writeOffset 0x04#6 w u = .next (writeCtrl w u) := fun _ => rfl
  refine (hctrl _).trans ?_
  unfold writeCtrl
  split
  · rw [resetEngine, abandonOutput_eq]
    rfl
  · rfl

end Sys2Proof.Machine

/-! PROOFS of family 20_memory. Which instructions leave memory alone, and what another agent's store
puts into memory and into the record. -/

namespace Sys2Proof.Machine

/-! ## What an instruction leaves of memory -/

section
variable {s s' : State} {i : Instr}

/-- A read leaves memory alone, however it is answered, if the rest of the micro-operation does. -/
theorem mem_withString {addr len : Word} {rest : List Byte → State → Result}
    (h : withString addr len s rest = .next s')
    (hrest : ∀ x u, rest x u = .next s' → s'.mem = u.mem) : s'.mem = s.mem := by
  rcases withString_next h with ⟨-, h⟩ | ⟨-, -, ⟨-, h⟩ | ⟨k, l, -, rfl⟩ | ⟨l, -, rfl⟩⟩
  · exact hrest [] s h
  · exact hrest _ (popAnswer s) h
  · rfl
  · rfl

/-- A DERIVE stores nothing, accepted or dropped (R103, R105). -/
theorem mem_derive {v : Variant} (h : derive v s = .next s') : s'.mem = s.mem := by
  rw [derive_eq] at h
  cases h
  split <;> rfl

/-- CHECK stores nothing, passed or not (R86). -/
theorem mem_execCheck (h : execCheck s = .next s') : s'.mem = s.mem := by
  unfold execCheck at h
  split at h
  · cases h; rfl
  · obtain ⟨v, -, h⟩ := withVariant_next h
    split at h <;> cases h <;> rfl

/-- Every instruction but WRITEOUT leaves memory as it was (R50). -/
theorem mem_exec (hi : i ≠ .writeout) (h : exec i s = .next s') : s'.mem = s.mem := by
  cases i with
  | nop | idle | finish => cases h; rfl
  | deriveSha1 | deriveSha256 | deriveSha512 => exact mem_derive h
  | check => exact mem_execCheck h
  | keyload =>
    obtain ⟨v, -, h⟩ := withVariant_next h
    exact mem_withString h fun x u hu => by cases hu; rfl
  | precomp =>
    obtain ⟨v, -, h⟩ := withVariant_next h
    obtain ⟨k, -, h⟩ := withValue_next h
    cases h; rfl
  | u1 =>
    obtain ⟨v, -, h⟩ := withVariant_next h
    obtain ⟨ipad, -, h⟩ := withValue_next h
    obtain ⟨opad, -, h⟩ := withValue_next h
    exact mem_withString h fun x u hu => by cases hu; rfl
  | uiter =>
    obtain ⟨v, -, h⟩ := withVariant_next h
    obtain ⟨ipad, -, h⟩ := withValue_next h
    obtain ⟨opad, -, h⟩ := withValue_next h
    obtain ⟨u, -, h⟩ := withValue_next h
    cases h; rfl
  | xoracc =>
    obtain ⟨t, -, h⟩ := withValue_next h
    obtain ⟨u, -, h⟩ := withValue_next h
    cases h; rfl
  | writeout => exact absurd rfl hi

end

/-- Settles O46: the whole memory is kept, so every byte of it is. -/
theorem onlyWriteoutStores : Obligations.OnlyWriteoutStores := by
  intro i s t hi h a
  rw [mem_exec hi h]

/-! ## Another agent's store -/

/-- Two ranges overlap exactly when a byte of the one lies in the other (R86). -/
theorem overlaps_iff (w r : Range) :
    w.overlaps r = true ↔ ∃ k, k < w.len ∧ r.contains (w.start + k) = true := by
  simp only [Range.overlaps, contains_iff, decide_eq_true_eq]
  constructor
  · intro h
    exact ⟨max w.start r.start - w.start, by omega⟩
  · rintro ⟨k, hk⟩
    omega

section
variable {s : State} {a : Nat} {x : List Byte}

/-- Byte `k` of an agent's store: free in an output range the engine owns, else its own (R126, U3). -/
theorem getD_foreignBytes {k : Nat} (hk : k < x.length) : (foreignBytes a x s).getD k 0#8 =
    if s.ownsOutput (a + k) then Config.freeByte s.draws k else x.getD k 0#8 := by
  simp [foreignBytes, hk]

/-- A store that touches no owned output range is made as it stands. -/
theorem foreignBytes_of_unowned (h : ∀ k, k < x.length → s.ownsOutput (a + k) = false) :
    foreignBytes a x s = x := by
  apply List.ext_getElem (length_foreignBytes a x)
  intro k _ hk
  simp [foreignBytes, h k hk]

/-- R126: what a store that respects the ranges keeps off. -/
theorem respects_store_iff : (Event.store a x).respects s = true ↔ ∀ p ∈ s.owners,
    (⟨a, x.length⟩ : Range).overlaps p.pwRange = false ∧
    (⟨a, x.length⟩ : Range).overlaps p.saltRange = false ∧
    (⟨a, x.length⟩ : Range).overlaps p.outRange = false := by
  simp [Event.respects, and_assoc]

/-- A store that respects the ranges touches no owned output range. -/
theorem ownsOutput_of_respects (h : (Event.store a x).respects s = true) (k : Nat)
    (hk : k < x.length) : s.ownsOutput (a + k) = false := by
  rw [State.ownsOutput, recorded, List.any_map, List.any_eq_false]
  intro p hp hin
  obtain ⟨-, -, hout⟩ := respects_store_iff.mp h p hp
  have hov := (overlaps_iff ⟨a, x.length⟩ p.outRange).mpr ⟨k, hk, hin⟩
  rw [hout] at hov
  cases hov

/-- A store that respects the ranges touches no input of the running derivation. -/
theorem inputs_of_respects (h : (Event.store a x).respects s = true) :
    (s.busy && ((⟨a, x.length⟩ : Range).overlaps s.snap.pwRange ||
      (⟨a, x.length⟩ : Range).overlaps s.snap.saltRange)) = false := by
  cases hb : s.busy with
  | false => rfl
  | true =>
    obtain ⟨hpw, hsalt, -⟩ := respects_store_iff.mp h s.snap (by simp [State.owners, hb])
    rw [hpw, hsalt]
    rfl

section
variable (hx : a + x.length ≤ Config.memorySpace) (hm : Memory.wf s.mem = true)
include hx hm

/-- What every byte of memory reads as after an agent's store. -/
theorem readByte_foreignBytes (b : Nat) : (s.mem.writeBytes a (foreignBytes a x s)).readByte b =
    if a ≤ b ∧ b < a + x.length then (foreignBytes a x s).getD (b - a) 0#8
    else s.mem.readByte b := by
  rw [Memory.readByte_writeBytes _ _ _ _ (by rwa [length_foreignBytes]) hm, length_foreignBytes]

/-- An address that an agent's store does not name keeps its byte and its record. -/
theorem agentStore_outside {b : Nat} (hb : b < a ∨ a + x.length ≤ b) :
    (s.mem.writeBytes a (foreignBytes a x s)).readByte b = s.mem.readByte b ∧
    recorded (shared ⟨a, x.length⟩ (s.owners.map Params.outRange) ++
      lift ⟨a, x.length⟩ s.unspecified) b = recorded s.unspecified b := by
  have hw : ¬(⟨a, x.length⟩ : Range).contains b = true := by simp only [contains_iff]; omega
  rw [readByte_foreignBytes hx hm, recorded_agentStore, if_neg (by omega), if_neg hw]
  exact ⟨rfl, rfl⟩

/-- The byte an agent stores at an address and its record both turn on whether the engine owns the
address as output. -/
theorem agentStore_inside {k : Nat} (hk : k < x.length) :
    (s.mem.writeBytes a (foreignBytes a x s)).readByte (a + k) =
      (if s.ownsOutput (a + k) then Config.freeByte s.draws k else x.getD k 0#8) ∧
    recorded (shared ⟨a, x.length⟩ (s.owners.map Params.outRange) ++
      lift ⟨a, x.length⟩ s.unspecified) (a + k) = s.ownsOutput (a + k) := by
  have hw : (⟨a, x.length⟩ : Range).contains (a + k) = true := by simp only [contains_iff]; omega
  rw [readByte_foreignBytes hx hm, recorded_agentStore, if_pos (by omega), if_pos hw,
    Nat.add_sub_cancel_left, getD_foreignBytes hk]
  exact ⟨rfl, rfl⟩

/-- A store that respects the ranges reads back whole. -/
theorem readBytes_of_respects (h : (Event.store a x).respects s = true) :
    (s.mem.writeBytes a (foreignBytes a x s)).readBytes a x.length = x := by
  rw [foreignBytes_of_unowned (ownsOutput_of_respects h)]
  exact Memory.readBytes_writeBytes x s.mem a hx hm

end
end

/-- Settles O59: the store completes inside memory, and what an address reads as and whether it is
recorded follow from whether the store names it and whether the engine owns it. -/
theorem agentStoresOutsideTheRangesAreHarmless :
    Obligations.AgentStoresOutsideTheRangesAreHarmless := by
  intro s a x hx hm
  refine ⟨_, if_neg (Nat.not_lt.mpr hx), rfl, fun b hb => agentStore_outside hx hm hb, fun k hk => ?_,
    ?_, fun h => ⟨?_, readBytes_of_respects hx hm h⟩⟩
  · obtain ⟨hbyte, hrec⟩ := agentStore_inside hx hm hk
    refine ⟨fun hown => ?_, fun hrun hunseen => ?_⟩
    · have howns : s.ownsOutput (a + k) = true := by
        simpa [ownsOutput_eq] using hown
      exact ⟨hbyte.trans (if_pos howns), hrec.trans howns⟩
    · have howns : s.ownsOutput (a + k) = false := by
        rw [ownsOutput_eq, Bool.or_eq_false_iff, Bool.and_eq_false_iff, List.any_eq_false]
        exact ⟨hrun, fun p hp => by simp [hunseen p hp]⟩
      exact ⟨hbyte.trans (by rw [howns]; rfl), hrec.trans howns⟩
  · simp only [Bool.or_eq_true, Bool.and_eq_true, overlaps_iff, ← exists_or, ← and_or_left]
  · exact (congrArg (s.disturbed || ·) (inputs_of_respects h)).trans (Bool.or_false _)

end Sys2Proof.Machine

/-! PROOFS of family 30_encoding. The two decoders against the encoder and the field checks, how a placed
word reaches `exec`, and the host's script for a derivation. -/

namespace Sys2Proof.Machine

/-! ## The decoders, the encoder and the field checks -/

/-- R63: the fields RSV and OP are the whole word. -/
theorem cmdRsv_append_cmdOp (w : Word) : cmdRsv w ++ cmdOp w = w :=
  (BitVec.extractLsb'_append_extractLsb'_eq_extractLsb' (start₁ := 0) (start₂ := 4) rfl).trans
    BitVec.extractLsb'_eq_self

/-- R63: a word has a reserved bit set, or is one of the sixteen that OP alone makes. -/
theorem cmdRsv_ne_zero_or_eq_append (w : Word) :
    cmdRsv w ≠ 0#28 ∨ ∃ op : BitVec 4, w = 0#28 ++ op := by
  by_cases h : cmdRsv w = 0#28
  · exact .inr ⟨cmdOp w, by rw [← h, cmdRsv_append_cmdOp]⟩
  · exact .inl h

/-- R63, R66: a word with a reserved bit set is rejected by name. -/
theorem decodeCmd_of_cmdRsv_ne_zero {w : Word} (h : cmdRsv w ≠ 0#28) :
    decodeCmd w = .error (.illegalCommand w) :=
  if_pos h

/-- R63: a word with a reserved bit set fails the field check on RSV. -/
theorem wellFormed_of_cmdRsv_ne_zero {w : Word} (h : cmdRsv w ≠ 0#28) :
    (Code.cmd w).wellFormed = false := by
  have hrsv : (Code.cmd w).rsvIsZero = false := beq_false_of_ne h
  rw [Code.wellFormed, hrsv, Bool.false_and, Bool.false_and]

/-- R63: a command word decodes to the command it is the encoding of. -/
theorem encode_of_decodeCmd_ok {w : Word} {i : Instr} (h : decodeCmd w = .ok i) :
    .cmd w = encode i := by
  have hall : ∀ op : BitVec 4, (decodeCmd (0#28 ++ op)).toOption.all
      (fun i => .cmd (0#28 ++ op) = encode i) = true := by decide
  rcases cmdRsv_ne_zero_or_eq_append w with hrsv | ⟨op, rfl⟩
  · rw [decodeCmd_of_cmdRsv_ne_zero hrsv] at h
    cases h
  · simpa [h, Except.toOption] using hall op

/-- R63, R65: an instruction's encoding decodes to it. -/
theorem decode_encode (i : Instr) : decode (encode i) = .ok i := by
  cases i <;> rfl

/-- Settles O2: each decoder gives only the instruction whose encoding it was given, and the encoding
of every instruction decodes to it. -/
theorem decodesExactlyItsEncodings : Obligations.DecodesExactlyItsEncodings := by
  intro c i
  constructor
  · intro h
    cases c with
    | cmd w => exact encode_of_decodeCmd_ok h
    | uop p => exact encode_of_decodeUop_ok h
  · rintro rfl
    exact decode_encode i

/-- Settles O3: a reserved bit fails both; what is left are the sixteen values of OP, and of a phase
code. -/
theorem rejectsExactlyTheIllFormed : Obligations.RejectsExactlyTheIllFormed := by
  have hop : ∀ op : BitVec 4, (Code.cmd (0#28 ++ op)).wellFormed = false ↔
      decodeCmd (0#28 ++ op) = .error (.illegalCommand (0#28 ++ op)) := by decide
  refine ⟨fun w => ?_, by decide⟩
  rcases cmdRsv_ne_zero_or_eq_append w with hrsv | ⟨op, rfl⟩
  · exact iff_of_true (wellFormed_of_cmdRsv_ne_zero hrsv) (decodeCmd_of_cmdRsv_ne_zero hrsv)
  · exact hop op

/-- Settles O1: the words of the tables are encodings, and the others fail a field check. -/
theorem decodesTheWordsOfTheTables : Obligations.DecodesTheWordsOfTheTables := by
  obtain ⟨hcmd, huop⟩ := rejectsExactlyTheIllFormed
  exact ⟨decode_encode .nop, decode_encode .deriveSha1, decode_encode .deriveSha256,
    decode_encode .deriveSha512, (hcmd _).mp rfl, (hcmd _).mp rfl, (hcmd _).mp rfl,
    decode_encode .idle, decode_encode .check, decode_encode .keyload, decode_encode .precomp,
    decode_encode .u1, decode_encode .uiter, decode_encode .xoracc, decode_encode .writeout,
    decode_encode .finish, (huop _).mp rfl⟩

/-! ## Placing a word of the opcode table -/

/-- A table word that decodes has a coded form, and that form decodes. -/
theorem tableCode_of_decodeTableWord {nbits w : Nat} {i : Instr} (h : decodeTableWord nbits w = some i) :
    ∃ c, tableCode nbits w = some c ∧ decode c = .ok i := by
  unfold decodeTableWord at h
  split at h
  · next c hc =>
    refine ⟨c, hc, ?_⟩
    split at h
    · next hd => cases h; exact hd
    · cases h
  · cases h

/-- A table word that is a phase code is the code's number (R65). -/
theorem eq_ofNat_of_tableCode_uop {nbits w : Nat} {p : BitVec 4}
    (h : tableCode nbits w = some (.uop p)) : p = BitVec.ofNat 4 w := by
  unfold tableCode at h
  split at h
  · split at h <;> cases h
  · split at h
    · split at h
      · cases h; rfl
      · cases h
    · cases h

/-- R62: what a code decodes to is an instruction of the code's format. -/
theorem format_of_decode_ok {c : Code} {i : Instr} (h : decode c = .ok i) : i.format = c.format := by
  rw [(decodesExactlyItsEncodings c i).mp h]
  cases i <;> rfl

/-- Settles O6: a placed command is the host's next write to CMD, a placed phase code the engine's next
turn. -/
theorem placedWordIsRunNext : Obligations.PlacedWordIsRunNext := by
  intro s nbits w i h
  obtain ⟨c, hc, hd⟩ := tableCode_of_decodeTableWord h
  rw [State.withFetchWord, hc, format_of_decode_ok hd]
  cases c with
  | cmd word => exact commandWriteRunsTheDecodedCommand _ i word s.pending rfl hd
  | uop p =>
    obtain rfl := eq_ofNat_of_tableCode_uop hc
    obtain ⟨-, hruns, -⟩ := engineTurnRunsTheDecodedMicroOperation
      (placeCode (.uop (BitVec.ofNat 4 w)) s) _ (.inr ⟨s.pending, rfl, rfl⟩)
    exact hruns i rfl hd

/-! ## The host's script for a derivation -/

section
variable {s : State}

/-- R22: the map is inverse to the offsets, which are multiples of 4. -/
theorem regAt_regOffset (r : Reg) : regAt (regOffset r) = some r ∧ (regOffset r).toNat % 4 = 0 := by
  cases r <;> decide

/-- R19, R67: the next event being `WR r, w`, the step is the register's write, answered OK. -/
theorem step_wr {r : Reg} {w : Word} {rest : List Event}
    (hp : s.pending = wr s.platform.regBase r w :: rest) :
    step s = writeReg r w { s with pending := rest, reply := some ⟨none, .ok⟩ } := by
  obtain ⟨hat, h4⟩ := regAt_regOffset r
  rw [step_of_pending_cons hp]
  refine (hostAccess_write (regOffset r).isLt h4 w { s with pending := rest }).trans ?_
  rw [BitVec.ofNat_toNat, BitVec.setWidth_eq, writeOffset, hat]

/-- A run whose first event is `WR r, w` goes on from what the write leaves. -/
theorem run_wr {t : State} {k : Nat} {r : Reg} {w : Word} {rest : List Event}
    (hp : s.pending = wr s.platform.regBase r w :: rest)
    (hw : writeReg r w { s with pending := rest, reply := some ⟨none, .ok⟩ } = .next t) :
    Host.Core.run Sys2Proof.core (k + 1) s = Host.Core.run Sys2Proof.core k t :=
  run_next ((step_wr hp).trans hw)

/-- R97, R103: an idle engine accepts the DERIVE command of a variant. -/
theorem presentCommand_deriveWord_of_idle (v : Variant) (h : s.busy = false) :
    presentCommand (deriveWord v) s = .next (accept v s) := by
  have hcommand : presentCommand (deriveWord v) s = derive v s := by cases v <;> rfl
  rw [hcommand, derive_eq, h]
  rfl

end

/-- Settles O12: seven writes fill the parameter registers one by one, the eighth is accepted. -/
theorem deriveScriptStartsTheDerivation : Obligations.DeriveScriptStartsTheDerivation := by
  intro s v p hidle hp
  calc Host.Core.run Sys2Proof.core 8 s
    _ = Host.Core.run Sys2Proof.core 7 _ := run_wr hp rfl
    _ = Host.Core.run Sys2Proof.core 6 _ := run_wr rfl rfl
    _ = Host.Core.run Sys2Proof.core 5 _ := run_wr rfl rfl
    _ = Host.Core.run Sys2Proof.core 4 _ := run_wr rfl rfl
    _ = Host.Core.run Sys2Proof.core 3 _ := run_wr rfl rfl
    _ = Host.Core.run Sys2Proof.core 2 _ := run_wr rfl rfl
    _ = Host.Core.run Sys2Proof.core 1 _ := run_wr rfl rfl
    _ = Host.Core.run Sys2Proof.core 0 _ := run_wr rfl (presentCommand_deriveWord_of_idle v hidle)
    _ = _ := rfl

end Sys2Proof.Machine

/-! PROOFS of family 40_hash_port. The padding of a tail shorter than a block (R74), and the HMAC of a
message as long as a digest (R78). -/

namespace Sys2Proof.Machine

/-! ## Padding -/

section
variable (v : Variant)

/-- The length field fits in a block (R9). -/
theorem lengthWidth_le_blockSize : lengthWidth v ≤ blockSize v := by cases v <;> decide

/-- The zero bytes are fewer than a block. -/
theorem padZeros_lt_blockSize (n : Nat) : padZeros v n < blockSize v :=
  Nat.mod_lt _ (blockSize_pos v)

/-- R74: the zero bytes make the padded tail end with a full block. -/
theorem blockSize_dvd_add_padZeros (n : Nat) :
    blockSize v ∣ n + 1 + padZeros v n + lengthWidth v := by
  have hlt := Nat.mod_lt (n + 1 + lengthWidth v) (blockSize_pos v)
  rw [Nat.add_right_comm, Nat.dvd_iff_mod_eq_zero, padZeros, Nat.add_mod, Nat.mod_mod,
    Nat.add_mod_mod, Nat.add_sub_of_le hlt.le, Nat.mod_self]

/-- R74: and no fewer zero bytes do, since two such numbers differ by whole blocks. -/
theorem padZeros_le_of_dvd {n z : Nat} (h : blockSize v ∣ n + 1 + z + lengthWidth v) :
    padZeros v n ≤ z := by
  have hlt := padZeros_lt_blockSize v n
  have hle : n + 1 + padZeros v n + lengthWidth v ≤ n + 1 + z + lengthWidth v :=
    Nat.le_of_lt_add_of_dvd (by omega) (blockSize_dvd_add_padZeros v n) h
  omega

/-- A padded tail is whole blocks, at least one and, the tail being shorter than a block, fewer than
three. -/
theorem length_pad_eq_or {tail : List Byte} (total : Nat) (h : tail.length < blockSize v) :
    (pad v tail total).length = blockSize v ∨ (pad v tail total).length = 2 * blockSize v := by
  obtain ⟨q, hq⟩ := blockSize_dvd_add_padZeros v tail.length
  have hzeros := padZeros_lt_blockSize v tail.length
  have hwidth := lengthWidth_le_blockSize v
  have hlower : 0 < q := Nat.pos_of_ne_zero (by rintro rfl; omega)
  have hupper : q < 3 := Nat.lt_of_mul_lt_mul_left (a := blockSize v) (by omega)
  rw [length_pad, hq]
  obtain rfl | rfl : q = 1 ∨ q = 2 := by omega
  · exact .inl (Nat.mul_one _)
  · exact .inr (Nat.mul_comm _ _)

end

/-- R15: byte `k` of BEn is the value's base-256 digit of weight `w - 1 - k`. -/
theorem toNat_getD_bigEndian (n : Nat) {w k : Nat} (h : k < w) :
    ((bigEndian n w).getD k 0#8).toNat = n / 2 ^ (8 * (w - 1 - k)) % 256 := by
  simp [bigEndian, h, Nat.shiftRight_eq_div_pow]

/-- Settles O50: the number of zero bytes is `padZeros`, which fills the last block and is least. -/
theorem paddingFillsOneOrTwoBlocks : Obligations.PaddingFillsOneOrTwoBlocks := by
  intro v tail total h
  have hpos := blockSize_pos v
  exact ⟨length_pad_eq_or v total (by omega), padZeros v tail.length, rfl,
    Nat.mod_eq_zero_of_dvd (blockSize_dvd_add_padZeros v _),
    fun _ hz => padZeros_le_of_dvd v (Nat.dvd_of_mod_eq_zero hz),
    fun _ hk => toNat_getD_bigEndian _ hk⟩

/-! ## The HMAC of a digest -/

/-- R75, R78: the final hash of a `D`-byte tail absorbs one block. -/
theorem hFinalize_digest (c : HashCores) (v : Variant) (S : HashState) (tail : List Byte) (total : Nat)
    (h : tail.length = digestSize v) :
    hFinalize c v S tail total = hEmit c (hAbsorb c S (pad v tail total)) := by
  rw [hFinalize, hAbsorbAll_block _ _ _ _ (length_pad_digest v tail total h)]

/-- Settles O51: the message is all tail, and the inner digest is again `D` bytes. -/
theorem digestHmacAbsorbsTwoBlocks : Obligations.DigestHmacAbsorbsTwoBlocks := by
  intro c v ipad opad m hm hv
  have htail : hAbsorbAll c v ipad m = (ipad, m) :=
    hAbsorbAll_short c v ipad m (hm ▸ digestSize_lt_blockSize v)
  have hinner : (hFinalize c v ipad m (blockSize v + m.length)).length = digestSize v := by
    rw [length_hFinalize, hv]
  calc hmacFrom c v ipad opad m
    _ = hFinalize c v opad (hFinalize c v ipad m (blockSize v + m.length))
          (blockSize v + digestSize v) := by rw [hmacFrom, htail]
    _ = _ := by rw [hFinalize_digest c v opad _ _ hinner, hFinalize_digest c v ipad m _ hm, hm]

end Sys2Proof.Machine

/-! PROOFS of family 41_hmac. KEYLOAD forms `K0` (R79), PRECOMP makes the two key states (R80), the
block loop only reads them (R81), and HMAC is resumed from them (R83). -/

namespace Sys2Proof.Machine

/-! ## Reading a byte string, answer by answer -/

section
variable {s : State} {addr len : Word} (rest : List Byte → State → Result)

/-- The empty byte string needs no transaction (R50). -/
theorem withString_of_len_zero (h : len = 0) : withString addr len s rest = rest [] s := if_pos h

/-- A byte string inside memory is handed on when the transaction is answered OK (R46). -/
theorem withString_of_answer_ok (h : len ≠ 0) (hm : addr.toNat + len.toNat ≤ Config.memorySpace)
    (ha : nextAnswer s = .ok) : withString addr len s rest =
      rest (s.mem.readBytes addr.toNat len.toNat) (popAnswer s) := by
  rw [withString, if_neg h, if_neg (Nat.not_lt.mpr hm), ha]

/-- A transaction that is never answered leaves the micro-operation waiting (U12). -/
theorem withString_of_answer_never {l : Nat} (h : len ≠ 0)
    (hm : addr.toNat + len.toNat ≤ Config.memorySpace) (ha : nextAnswer s = .never l) :
    withString addr len s rest = .next { popAnswer s with waiting := true } := by
  rw [withString, if_neg h, if_neg (Nat.not_lt.mpr hm), ha]

end

/-! ## KEYLOAD -/

/-- `K0` written out: a password longer than a block is hashed, and either is zero-padded (R79). -/
theorem paddedKey_eq (c : HashCores) (v : Variant) (p : List Byte) :
    paddedKey c v p =
      if blockSize v < p.length then hDigest c v p ++ List.replicate (blockSize v - digestSize v) 0#8
      else p ++ List.replicate (blockSize v - p.length) 0#8 := by
  unfold paddedKey hmacKey
  split
  · rw [length_hDigest]
  · rfl

/-- The key of an empty password is all zeros. -/
theorem paddedKey_nil (c : HashCores) (v : Variant) :
    paddedKey c v [] = List.replicate (blockSize v) 0#8 := by
  simp [paddedKey_eq]

/-- Settles O18: the read is not made, answered OK or never answered, and `paddedKey_eq` gives the key
of the bytes read. -/
theorem keyloadFormsTheKey : Obligations.KeyloadFormsTheKey := by
  intro s v hv
  rw [exec, execKeyload, withVariant_some hv]
  refine ⟨fun h0 => ?_, fun h0 hm => ⟨fun ha p hp => ?_, fun l ha => ?_⟩⟩
  · rw [withString_of_len_zero _ h0, paddedKey_nil]
  · have hlen : p.length = s.snap.pwLen.toNat := by rw [hp, Memory.length_readBytes]
    rw [withString_of_answer_ok _ h0 hm ha, ← hp, paddedKey_eq, hlen, popAnswer]
  · rw [withString_of_answer_never _ h0 hm ha, popAnswer]

/-! ## The block loop's frame -/

/-- The two HMAC key states (R38). -/
def keyStates (s : State) : Option HashState × Option HashState := (s.ipadState, s.opadState)

/-- From `s` to `t` the key states are only read, or `t` is the end of a bus error (R81, R113). -/
def OnlyReadsKeyStates (s t : State) : Prop :=
  keyStates t = keyStates s ∨
    (keyStates t = (none, none) ∧ t.errcode = .busError ∧ t.phase = phaseIdle)

section
variable {s t : State}

theorem keyStates_nextBlock (s : State) : keyStates (nextBlock s) = keyStates s := by
  rw [nextBlock_eq]
  rfl

theorem keyStates_outputOf (w : Range) (x : List Byte) (s : State) :
    keyStates (outputOf w x s).2 = keyStates s := by
  unfold outputOf
  split <;> rfl

/-- The end of a bus error, whatever state it is taken in. -/
theorem onlyReadsKeyStates_abort (s u : State) (e : Word) :
    OnlyReadsKeyStates s (abort (.busError e) u) := .inr ⟨rfl, rfl, rfl⟩

/-- A read only reads the key states, if the rest of the micro-operation keeps them. -/
theorem onlyReadsKeyStates_withString {addr len : Word} {rest : List Byte → State → Result}
    (h : withString addr len s rest = .next t)
    (hrest : ∀ x u, rest x u = .next t → keyStates t = keyStates u) : OnlyReadsKeyStates s t := by
  rcases withString_next h with ⟨-, h⟩ | ⟨-, -, ⟨-, h⟩ | ⟨k, l, -, rfl⟩ | ⟨l, -, rfl⟩⟩
  · exact .inl (hrest [] s h)
  · exact .inl (hrest _ (popAnswer s) h)
  · exact onlyReadsKeyStates_abort ..
  · exact .inl rfl

/-- So does a write. -/
theorem onlyReadsKeyStates_withWrite {a n : Nat} {x : List Byte} {rest : State → Result}
    (h : withWrite a n x s rest = .next t)
    (hrest : ∀ u, rest u = .next t → keyStates t = keyStates u) : OnlyReadsKeyStates s t := by
  obtain ⟨-, ⟨-, h⟩ | ⟨k, l, -, rfl⟩ | ⟨l, -, rfl⟩⟩ := withWrite_next h
  · exact .inl (hrest { popAnswer s with mem := s.mem.writeBytes a x } h)
  · exact onlyReadsKeyStates_abort ..
  · exact .inl rfl

theorem onlyReadsKeyStates_execU1 (h : execU1 s = .next t) : OnlyReadsKeyStates s t := by
  obtain ⟨v, -, h⟩ := withVariant_next h
  obtain ⟨ipad, -, h⟩ := withValue_next h
  obtain ⟨opad, -, h⟩ := withValue_next h
  exact onlyReadsKeyStates_withString h fun x u hu => by cases hu; rfl

theorem onlyReadsKeyStates_execUiter (h : execUiter s = .next t) : OnlyReadsKeyStates s t := by
  obtain ⟨v, -, h⟩ := withVariant_next h
  obtain ⟨ipad, -, h⟩ := withValue_next h
  obtain ⟨opad, -, h⟩ := withValue_next h
  obtain ⟨u, -, h⟩ := withValue_next h
  cases h
  exact .inl rfl

theorem onlyReadsKeyStates_execXoracc (h : execXoracc s = .next t) : OnlyReadsKeyStates s t := by
  obtain ⟨x, -, h⟩ := withValue_next h
  obtain ⟨u, -, h⟩ := withValue_next h
  cases h
  exact .inl rfl

theorem onlyReadsKeyStates_execWriteout (h : execWriteout s = .next t) : OnlyReadsKeyStates s t := by
  obtain ⟨v, -, h⟩ := withVariant_next h
  obtain ⟨x, -, h⟩ := withValue_next h
  split at h
  · cases h
  · have hw := onlyReadsKeyStates_withWrite h fun u hu => by
      cases hu
      exact keyStates_nextBlock u
    rwa [OnlyReadsKeyStates, keyStates_outputOf] at hw

end

/-- Settles O20: U1 and WRITEOUT can meet a bus error, UITER and XORACC cannot. -/
theorem blockLoopOnlyReadsTheKeyStates : Obligations.BlockLoopOnlyReadsTheKeyStates := by
  intro i s t hi h
  have hread : OnlyReadsKeyStates s t := by
    simp only [List.mem_cons, List.not_mem_nil, or_false] at hi
    obtain rfl | rfl | rfl | rfl := hi
    · exact onlyReadsKeyStates_execU1 h
    · exact onlyReadsKeyStates_execUiter h
    · exact onlyReadsKeyStates_execXoracc h
    · exact onlyReadsKeyStates_execWriteout h
  obtain hkept | ⟨habsent, hcode, hphase⟩ := hread
  · exact .inl (Prod.mk.inj hkept)
  · obtain ⟨hipad, hopad⟩ := Prod.mk.inj habsent
    exact .inr ⟨hipad, hopad, hcode, hphase⟩

/-! ## HMAC from the key states -/

/-- Settles O52: `hmacOf` is the right side by definition. -/
theorem snapshotHmacIsHmac : Obligations.SnapshotHmacIsHmac :=
  fun c v k m hk => hmacFrom_precomp c v k m hk

/-! ## PRECOMP -/

/-- The pad block of a `B`-byte key, byte by byte (R80). -/
theorem padBlock_eq_map {v : Variant} {k : List Byte} (hk : k.length = blockSize v) (b : Byte) :
    padBlock v k b = k.map (· ^^^ b) := by
  rw [padBlock, xorBytes, ← hk, ← List.map_const', List.zipWith_map_right, List.zipWith_self]

/-- Settles O19: the pad blocks are maps over a key of one block. -/
theorem precompBuildsTheKeyStates : Obligations.PrecompBuildsTheKeyStates := by
  intro s v k hv hk hlen
  rw [exec, execPrecomp_of_some hv hk, padBlock_eq_map hlen, padBlock_eq_map hlen]

end Sys2Proof.Machine

/-! PROOFS of family 42_block_loop. How CHECK judges the snapshot (R86), what U1, UITER, XORACC,
WRITEOUT and FINISH do (R87 to R91), the successor of each micro-operation (R85), and that a shorter
output begins a longer one (R96). -/

namespace Sys2Proof.Machine

/-! ## The number of blocks -/

section
variable (v : Variant) (outLen : Nat)

/-- There are no more blocks than output bytes. -/
theorem blockCount_le : blockCount v outLen ≤ outLen := by
  have hD := digestSize_pos v
  have hmul := Nat.le_mul_of_pos_right outLen hD
  refine Nat.lt_succ_iff.mp ((Nat.div_lt_iff_lt_mul hD).mpr ?_)
  rw [Nat.succ_mul]
  omega

/-- Only an empty output has no block. -/
theorem blockCount_eq_zero_iff : blockCount v outLen = 0 ↔ outLen = 0 := by
  have hD := digestSize_pos v
  rw [blockCount, Nat.div_eq_zero_iff]
  omega

/-- The number of blocks is the least `n` with `L ≤ n · D` (R16). -/
theorem blockCount_eq_of_bounds {n : Nat} (hle : outLen ≤ n * digestSize v)
    (hlt : n * digestSize v < outLen + digestSize v) : blockCount v outLen = n :=
  Nat.div_eq_of_lt_le (by omega) (by rw [Nat.succ_mul]; omega)

/-- A longer output has no fewer blocks. -/
theorem blockCount_mono {short long : Nat} (h : short ≤ long) : blockCount v short ≤ blockCount v long :=
  Nat.div_le_div_right (by omega)

end

/-! ## What CHECK finds -/

/-- A range wraps exactly when it is not empty and passes the top of memory (R86). -/
theorem wraps_iff (r : Range) : r.wraps = true ↔ 1 ≤ r.len ∧ 2 ^ 32 < r.start + r.len :=
  decide_eq_true_iff

/-- Two ranges overlap exactly when some address lies in both. -/
theorem overlaps_iff_exists_contains (r q : Range) :
    r.overlaps q = true ↔ ∃ a, r.contains a = true ∧ q.contains a = true := by
  rw [overlaps_iff]
  constructor
  · rintro ⟨k, hk, hq⟩
    exact ⟨r.start + k, by rw [contains_iff]; omega, hq⟩
  · rintro ⟨a, hr, hq⟩
    rw [contains_iff] at hr
    exact ⟨a - r.start, by omega, by rwa [Nat.add_sub_cancel' hr.1]⟩

/-- An empty range never wraps (R86). -/
theorem wraps_eq_false_of_len_zero {r : Range} (h : r.len = 0) : r.wraps = false := by
  simp [Range.wraps, h]

/-- An empty range overlaps nothing (R86). -/
theorem overlaps_eq_false_of_len_zero {r : Range} (h : r.len = 0) (q : Range) :
    r.overlaps q = false := by
  simp [Range.overlaps, h]

section
variable (v : Variant) {p : Params}

/-- With 32-bit lengths the range tests alone decide: BLOCK_OVERFLOW cannot occur (R86). -/
theorem checkRanges_eq : checkRanges v p =
    if p.pwRange.wraps || p.saltRange.wraps || p.outRange.wraps then some .addrRange
    else if p.outRange.overlaps p.pwRange || p.outRange.overlaps p.saltRange then some .overlap
    else none := by
  have hcount := blockCount_le v p.outLen.toNat
  have hlen := p.outLen.isLt
  exact if_neg (by omega)

theorem checkRanges_ne_blockOverflow : checkRanges v p ≠ some .blockOverflow := by
  rw [checkRanges_eq]
  split
  · simp
  · split <;> simp

/-- Some range wraps, in the words of the rule. -/
theorem anyWraps_iff : (p.pwRange.wraps || p.saltRange.wraps || p.outRange.wraps) = true ↔
    ∃ r ∈ [p.pwRange, p.saltRange, p.outRange], 1 ≤ r.len ∧ 2 ^ 32 < r.start + r.len := by
  simp [wraps_iff, or_assoc]

/-- The output overlaps an input, in the words of the rule. -/
theorem anyOverlap_iff : (p.outRange.overlaps p.pwRange || p.outRange.overlaps p.saltRange) = true ↔
    ∃ r ∈ [p.pwRange, p.saltRange], ∃ a, p.outRange.contains a = true ∧ r.contains a = true := by
  simp [overlaps_iff_exists_contains]

/-- A range that wraps is found before an overlap (R86, R111). -/
theorem checkRanges_of_wraps
    (h : ∃ r ∈ [p.pwRange, p.saltRange, p.outRange], 1 ≤ r.len ∧ 2 ^ 32 < r.start + r.len) :
    checkRanges v p = some .addrRange := by
  rw [checkRanges_eq, if_pos (anyWraps_iff.mpr h)]

/-- Where no range wraps, the overlap decides (R86). -/
theorem checkRanges_of_inside
    (h : ∀ r ∈ [p.pwRange, p.saltRange, p.outRange], 1 ≤ r.len → r.start + r.len ≤ 2 ^ 32) :
    checkRanges v p =
      if p.outRange.overlaps p.pwRange || p.outRange.overlaps p.saltRange then some .overlap
      else none := by
  rw [checkRanges_eq, if_neg]
  rw [anyWraps_iff]
  rintro ⟨r, hr, hlen, hwrap⟩
  exact absurd (h r hr hlen) (Nat.not_le.mpr hwrap)

end

/-! ## CHECK -/

section
variable {s t : State} {v : Variant}

/-- CHECK that finds something wrong is the error end (R86). -/
theorem execCheck_of_cause {c : AbortCause} (hv : s.var = some v) (hc : s.snap.iter ≠ 0)
    (hr : checkRanges v s.snap = some c) : execCheck s = .next (abort c s) := by
  rw [execCheck, if_neg hc, withVariant_some hv, hr]

/-- CHECK that finds nothing wrong counts the blocks; without one FINISH is next (R86). -/
theorem execCheck_of_checkRanges_none (hv : s.var = some v) (hc : s.snap.iter ≠ 0)
    (hr : checkRanges v s.snap = none) : execCheck s = .next { s with
      nblk := BitVec.ofNat 32 (blockCount v s.snap.outLen.toNat)
      phase := if s.snap.outLen = 0 then phaseFinish else phaseKeyload } := by
  have hzero : blockCount v s.snap.outLen.toNat = 0 ↔ s.snap.outLen = 0 := by
    rw [blockCount_eq_zero_iff, ← BitVec.toNat_inj]
    rfl
  rw [execCheck, if_neg hc, withVariant_some hv, hr]
  simp only [hzero]

/-- CHECK that goes on has ended the derivation for a cause other than BLOCK_OVERFLOW, or has counted
the blocks (R86). -/
theorem execCheck_next (h : execCheck s = .next t) :
    (∃ c, c ≠ .blockOverflow ∧ t = abort c s) ∨
      ∃ n, t = { s with
        nblk := n, phase := if s.snap.outLen = 0 then phaseFinish else phaseKeyload } := by
  by_cases hc : s.snap.iter = 0
  · rw [execCheck, if_pos hc] at h
    cases h
    exact .inl ⟨.invalidIterationCount, nofun, rfl⟩
  · obtain ⟨v, hv, -⟩ := withVariant_next ((if_neg hc).symm.trans h)
    cases hr : checkRanges v s.snap with
    | some c =>
      rw [execCheck_of_cause hv hc hr] at h
      cases h
      exact .inl ⟨c, fun hb => checkRanges_ne_blockOverflow v (hb ▸ hr), rfl⟩
    | none =>
      rw [execCheck_of_checkRanges_none hv hc hr] at h
      cases h
      exact .inr ⟨_, rfl⟩

end

/-- Settles O14: the iteration count is looked at first. -/
theorem checkRejectsZeroIterations : Obligations.CheckRejectsZeroIterations :=
  fun _ hc => if_pos hc

/-- Settles O13: nothing wraps, nothing overlaps, and the bounds fix the number of blocks. -/
theorem checkPassesLegalParameters : Obligations.CheckPassesLegalParameters := by
  intro s v n hv hc hle hlt hinside hapart
  have hoverlap : ¬(s.snap.outRange.overlaps s.snap.pwRange ||
      s.snap.outRange.overlaps s.snap.saltRange) = true := by
    rw [anyOverlap_iff]
    rintro ⟨r, hr, a, ha⟩
    exact hapart r hr a ha
  rw [exec, execCheck_of_checkRanges_none hv hc
    ((checkRanges_of_inside v hinside).trans (if_neg hoverlap)), blockCount_eq_of_bounds v _ hle hlt]

/-- Settles O15: a wrapping range is the first thing found. -/
theorem checkRejectsWrappingRanges : Obligations.CheckRejectsWrappingRanges :=
  fun _ v hv hc hwraps => execCheck_of_cause hv hc (checkRanges_of_wraps v hwraps)

/-- Settles O16: with every range inside memory a shared address is what is left to find. -/
theorem checkRejectsOverlap : Obligations.CheckRejectsOverlap :=
  fun _ v hv hc hinside hshared => execCheck_of_cause hv hc
    ((checkRanges_of_inside v hinside).trans (if_pos (anyOverlap_iff.mpr hshared)))

/-- Settles O17: the error end has another cause, and a CHECK that passes keeps ERRCODE. -/
theorem blockOverflowCannotOccur : Obligations.BlockOverflowCannotOccur := by
  intro s t h hs
  rcases execCheck_next h with ⟨c, hc, rfl⟩ | ⟨n, rfl⟩
  · cases c with
    | blockOverflow => exact absurd rfl hc
    | _ => exact nofun
  · exact hs

/-- Settles O57: CHECK counts no block, so FINISH is next. -/
theorem emptyOutputTakesTwoSteps : Obligations.EmptyOutputTakesTwoSteps := by
  intro s v hphase hv hwaiting hpending hc hlen hpw hsalt
  have hempty : s.snap.outRange.len = 0 := congrArg BitVec.toNat hlen
  have hranges : checkRanges v s.snap = none := by
    simp [checkRanges_eq, hpw, hsalt, wraps_eq_false_of_len_zero hempty,
      overlaps_eq_false_of_len_zero hempty]
  have hblocks : blockCount v s.snap.outLen.toNat = 0 := (blockCount_eq_zero_iff v _).mpr hempty
  have hcheck : step s = .next { s with nblk := 0, phase := phaseFinish } := by
    rw [step_alone (i := .check) hpending hwaiting (by rw [hphase]; rfl), exec,
      execCheck_of_checkRanges_none hv hc hranges, if_pos hlen, hblocks]
    rfl
  have hfinish := step_alone (s := { s with nblk := 0, phase := phaseFinish }) (i := .finish) hpending
    hwaiting rfl
  exact (run_next hcheck).trans (run_next hfinish)

/-! ## U1, UITER, XORACC and FINISH -/

/-- U1 with its key states is the salt's transaction and then the first value (R87). -/
theorem execU1_of_some {s : State} {v : Variant} {ipad opad : HashState} (hv : s.var = some v)
    (hi : s.ipadState = some ipad) (ho : s.opadState = some opad) :
    execU1 s = withString s.snap.saltAddr s.snap.saltLen s fun salt s' => .next { s' with
      u := some (hmacFrom (cores s) v ipad opad (salt ++ be32 s.i))
      t := some (hmacFrom (cores s) v ipad opad (salt ++ be32 s.i))
      j := 1, phase := if s.snap.iter = 1 then phaseWriteout else phaseUiter } := by
  rw [execU1, withVariant_some hv, hi, ho, withValue_some, withValue_some]

/-- Settles O21: the salt's transaction is not made, answered OK or never answered. -/
theorem u1StartsTheBlock : Obligations.U1StartsTheBlock := by
  intro s v ipad opad hv hi ho
  rw [exec, execU1_of_some hv hi ho]
  refine ⟨fun h0 u hu => ?_, fun h0 hm => ⟨fun ha u hu => ?_, fun l ha => ?_⟩⟩
  · rw [withString_of_len_zero _ h0, List.nil_append, ← hu]
  · rw [withString_of_answer_ok _ h0 hm ha, ← hu, popAnswer]
  · rw [withString_of_answer_never _ h0 hm ha, popAnswer]

/-- Counting one up on naturals and going back to words adds 1 to the word (R13). -/
theorem ofNat_toNat_add_one (w : Word) : BitVec.ofNat 32 (w.toNat + 1) = w + 1 := by
  simp [BitVec.ofNat_add]

/-- Settles O22: with everything present UITER makes the next value. -/
theorem uiterComputesTheNextValue : Obligations.UiterComputesTheNextValue := by
  intro s v ipad opad u hv hi ho hu
  rw [exec, execUiter_of_some hv hi ho hu rfl, ofNat_toNat_add_one]

/-- Byte `k` of the XOR of two byte strings of one length (R94). -/
theorem getD_xorBytes {x y : List Byte} {k : Nat} (hxy : x.length = y.length) (hk : k < x.length) :
    (xorBytes x y).getD k 0#8 = x.getD k 0#8 ^^^ y.getD k 0#8 := by
  have hy : k < y.length := hxy ▸ hk
  simp [xorBytes, hk, hy]

/-- Settles O23: T becomes the XOR of T and U, lane by lane. -/
theorem xoraccAccumulates : Obligations.XoraccAccumulates := by
  intro s t u ht hu hlen
  refine ⟨xorBytes t u, by simp [hlen], fun k hk => getD_xorBytes hlen hk, ?_⟩
  simp only [exec, execXoracc_of_some ht hu, BitVec.toNat_inj]

/-- Settles O27: FINISH is this update. -/
theorem finishEndsTheDerivation : Obligations.FinishEndsTheDerivation := fun _ => rfl

/-! ## WRITEOUT -/

/-- What WRITEOUT stores of `x`, and the state it stores it from: a race can change both (U3). -/
def writeoutOf (v : Variant) (x : List Byte) (s : State) : List Byte × State :=
  outputOf (blockRange v s) (x.take (blockRange v s).len) s

section
variable {s t : State} {v : Variant} {x : List Byte}

/-- Without a race the block's own bytes are stored (R90). -/
theorem writeoutOf_of_not_raced (h : raced (blockRange v s) s = false) :
    writeoutOf v x s = (x.take (blockRange v s).len, s) := outputOf_clean h

/-- A race changes nothing of the state but the model's record (log entry 5). -/
theorem writeoutOf_snd (v : Variant) (x : List Byte) (s : State) :
    ∃ l n, (writeoutOf v x s).2 = { s with
      unspecified := if raced (blockRange v s) s then l else s.unspecified
      draws := if raced (blockRange v s) s then n else s.draws } := by
  cases h : raced (blockRange v s) s with
  | false => exact ⟨[], 0, by rw [writeoutOf_of_not_raced h]; rfl⟩
  | true => exact ⟨_, _, by rw [writeoutOf, outputOf_raced h]; rfl⟩

/-- A digest fills its block's range (R90). -/
theorem length_writeoutOf (hx : x.length = digestSize v) :
    (writeoutOf v x s).1.length = (blockRange v s).len := by
  simp [writeoutOf, hx, blockRange]

/-- WRITEOUT of a block of the output is one transaction on the block's range (R90). -/
theorem execWriteout_of_inside (hv : s.var = some v) (ht : s.t = some x) (hi : s.i ≠ 0)
    (ho : blockOffset v s.i < s.snap.outLen.toNat) :
    execWriteout s = withWrite (blockRange v s).start (blockRange v s).len (writeoutOf v x s).1
      (writeoutOf v x s).2 fun u => .next (nextBlock u) := by
  rw [execWriteout, withVariant_some hv, ht, withValue_some,
    if_neg (not_or.mpr ⟨hi, Nat.not_le.mpr ho⟩)]
  rfl

/-- A WRITEOUT that goes on has made that transaction. -/
theorem execWriteout_next (h : execWriteout s = .next t) :
    ∃ v x, s.var = some v ∧ s.t = some x ∧
      withWrite (blockRange v s).start (blockRange v s).len (writeoutOf v x s).1
        (writeoutOf v x s).2 (fun u => .next (nextBlock u)) = .next t := by
  obtain ⟨v, hv, h⟩ := withVariant_next h
  obtain ⟨x, hx, h⟩ := withValue_next h
  split at h
  · cases h
  · exact ⟨v, x, hv, hx, h⟩

/-- A store inside memory that is answered OK lands whole (R47). -/
theorem withWrite_of_answer_ok {a n : Nat} {rest : State → Result}
    (hm : a + n ≤ Config.memorySpace) (ha : nextAnswer s = .ok) :
    withWrite a n x s rest = rest { popAnswer s with mem := s.mem.writeBytes a x } := by
  rw [withWrite, if_neg (Nat.not_lt.mpr hm), ha]

/-- A store leaves the memory it started from, if the rest of the micro-operation keeps it, but for the
bytes stored: all of them after OK, else those that landed (R47, U5, U16). -/
theorem mem_withWrite {a n : Nat} {rest : State → Result} (h : withWrite a n x s rest = .next t)
    (hrest : ∀ u, rest u = .next t → t.mem = u.mem) : a + n ≤ Config.memorySpace ∧
      (t.mem = s.mem.writeBytes a x ∨ nextAnswer s ≠ .ok ∧ ∃ m, t.mem = s.mem.writeLanded a x m) := by
  obtain ⟨hm, ⟨-, h⟩ | ⟨k, m, ha, rfl⟩ | ⟨m, ha, rfl⟩⟩ := withWrite_next h
  · exact ⟨hm, .inl (hrest { popAnswer s with mem := s.mem.writeBytes a x } h)⟩
  · exact ⟨hm, .inr ⟨by rw [ha]; nofun, m, rfl⟩⟩
  · exact ⟨hm, .inr ⟨by rw [ha]; nofun, m, rfl⟩⟩

/-- What every byte of memory reads as after a store of `x` that may have failed (R47). -/
theorem readByte_withWrite {w : Range} {rest : State → Result} (hx : x.length = w.len)
    (h : withWrite w.start w.len x s rest = .next t) (hwf : Memory.wf s.mem = true)
    (hrest : ∀ u, rest u = .next t → t.mem = u.mem) :
    (∀ a, w.contains a = false → t.mem.readByte a = s.mem.readByte a) ∧
    (∀ k, k < w.len → t.mem.readByte (w.start + k) = x.getD k 0#8 ∨
      nextAnswer s ≠ .ok ∧ t.mem.readByte (w.start + k) = s.mem.readByte (w.start + k)) := by
  have hout : ∀ a, w.contains a = false → a < w.start ∨ w.start + w.len ≤ a := fun a ha => by
    simp only [Range.contains, decide_eq_false_iff_not] at ha
    omega
  rw [← hx] at h hout ⊢
  obtain ⟨hm, hmem | ⟨ha, m, hmem⟩⟩ := mem_withWrite h hrest
  · simp only [hmem, Memory.readByte_writeBytes x s.mem _ _ hm hwf]
    exact ⟨fun a ha => if_neg (by have := hout a ha; omega),
      fun k hk => .inl (by rw [if_pos (by omega), Nat.add_sub_cancel_left])⟩
  · simp only [hmem, Memory.readByte_writeLanded x s.mem _ _ m hm hwf, Nat.add_sub_cancel_left]
    refine ⟨fun a ha => if_neg (by have := hout a ha; omega), fun k hk => ?_⟩
    split
    · exact .inl rfl
    · exact .inr ⟨ha, rfl⟩

end

/-- Settles O24: without a race the one transaction stores the block's own bytes. -/
theorem writeoutStoresTheBlock : Obligations.WriteoutStoresTheBlock := by
  rintro s v x off k hv hx hi rfl hoff rfl hm ha hdisturbed hunrecorded
  have hindex : s.i ≠ 0 := fun h0 => by simp [h0] at hi
  have hclean : raced (blockRange v s) s = false := raced_eq_false_of_unrecorded hdisturbed
    (fun a hin => have hin := (contains_iff _ a).mp hin; hunrecorded a hin.1 hin.2) fun _ hin => hin
  have hfits : (blockRange v s).start + (blockRange v s).len ≤ Config.memorySpace := hm
  rw [exec, execWriteout_of_inside hv hx hindex hoff, writeoutOf_of_not_raced hclean,
    withWrite_of_answer_ok hfits ha, nextBlock_eq, ← ofNat_toNat_add_one]
  rfl

/-- Settles O25: WRITEOUT is one transaction on the block's range, so its bytes follow from how that is
answered; unanswered it leaves the state the store was made from. -/
theorem writeoutFrame : Obligations.WriteoutFrame := by
  intro s v x hv hx hlen hwf
  refine ⟨fun hi ho hm => ?_, fun t h => ?_⟩
  · have hindex : s.i ≠ 0 := fun h0 => by simp [h0] at hi
    rw [exec, execWriteout_of_inside hv hx hindex ho]
    exact withWrite_goes_on hm fun _ => ⟨_, rfl⟩
  obtain ⟨v', x', hv', hx', hwrite⟩ := execWriteout_next h
  obtain rfl : v = v' := by simpa [hv] using hv'
  obtain rfl : x = x' := by simpa [hx] using hx'
  obtain ⟨l, n, hstate⟩ := writeoutOf_snd v x s
  have hbytes := length_writeoutOf (s := s) hlen
  rw [hstate] at hwrite
  obtain ⟨houtside, hinside⟩ := readByte_withWrite hbytes hwrite hwf fun u hu => by
    cases hu
    rw [nextBlock_eq]
  refine ⟨houtside, fun hclean k hk => ?_, fun m ha => ?_⟩
  · have hbyte : (writeoutOf v x s).1.getD k 0#8 = x.getD k 0#8 := by
      simp [writeoutOf_of_not_raced hclean, List.getD_eq_getElem?_getD, hk]
    rw [← hbyte]
    exact hinside k hk
  · obtain ⟨-, ⟨hok, -⟩ | ⟨_, _, herr, -⟩ | ⟨_, -, rfl⟩⟩ := withWrite_next hwrite
    · exact absurd (ha.symm.trans hok) nofun
    · exact absurd (ha.symm.trans herr) nofun
    · cases raced (blockRange v s) s <;> rfl

/-! ## The successors -/

/-- From `s` to `t` the micro-operation waits for its answer, was the error end, or is over with the
successor `p` (R85, R113, U12). -/
def GoesOnTo (s t : State) (p : BitVec 4) : Prop :=
  (t.waiting = true ∧ t.phase = s.phase) ∨
    (t.phase = phaseIdle ∧ t.done = true ∧ t.err = true) ∨ (t.waiting = false ∧ t.phase = p)

section
variable {s t : State} {p : BitVec 4}

theorem goesOnTo_abort (c : AbortCause) (u : State) : GoesOnTo s (abort c u) p :=
  .inr (.inl ⟨rfl, rfl, rfl⟩)

theorem goesOnTo_of_phase_eq (hw : t.waiting = false) (hp : t.phase = p) : GoesOnTo s t p :=
  .inr (.inr ⟨hw, hp⟩)

/-- A read that is answered OK leads where the rest of the micro-operation leads. -/
theorem goesOnTo_withString {addr len : Word} {rest : List Byte → State → Result}
    (h : withString addr len s rest = .next t) (hw : s.waiting = false)
    (hrest : ∀ x u, u.waiting = false → rest x u = .next t → t.waiting = false ∧ t.phase = p) :
    GoesOnTo s t p := by
  rcases withString_next h with ⟨-, h⟩ | ⟨-, -, ⟨-, h⟩ | ⟨k, l, -, rfl⟩ | ⟨l, -, rfl⟩⟩
  · exact .inr (.inr (hrest [] s hw h))
  · exact .inr (.inr (hrest _ (popAnswer s) hw h))
  · exact goesOnTo_abort ..
  · exact .inl ⟨rfl, rfl⟩

/-- A write that is answered OK leads where the rest of the micro-operation leads. -/
theorem goesOnTo_withWrite {a n : Nat} {x : List Byte} {rest : State → Result}
    (h : withWrite a n x s rest = .next t)
    (hrest : ∀ m, rest { popAnswer s with mem := m } = .next t → t.waiting = false ∧ t.phase = p) :
    GoesOnTo s t p := by
  obtain ⟨-, ⟨-, h⟩ | ⟨k, l, -, rfl⟩ | ⟨l, -, rfl⟩⟩ := withWrite_next h
  · exact .inr (.inr (hrest _ h))
  · exact goesOnTo_abort ..
  · exact .inl ⟨rfl, rfl⟩

theorem goesOnTo_execCheck (hw : s.waiting = false) (h : execCheck s = .next t) :
    GoesOnTo s t (if s.snap.outLen = 0 then phaseFinish else phaseKeyload) := by
  rcases execCheck_next h with ⟨c, -, rfl⟩ | ⟨n, rfl⟩
  · exact goesOnTo_abort ..
  · exact goesOnTo_of_phase_eq hw rfl

theorem goesOnTo_execKeyload (hw : s.waiting = false) (h : execKeyload s = .next t) :
    GoesOnTo s t phasePrecomp := by
  obtain ⟨v, -, h⟩ := withVariant_next h
  exact goesOnTo_withString h hw fun x u hu h => by cases h; exact ⟨hu, rfl⟩

theorem goesOnTo_execPrecomp (hw : s.waiting = false) (h : execPrecomp s = .next t) :
    GoesOnTo s t phaseU1 := by
  obtain ⟨v, -, h⟩ := withVariant_next h
  obtain ⟨k, -, h⟩ := withValue_next h
  cases h
  exact goesOnTo_of_phase_eq hw rfl

theorem goesOnTo_execU1 (hw : s.waiting = false) (h : execU1 s = .next t) :
    GoesOnTo s t (if s.snap.iter = 1 then phaseWriteout else phaseUiter) := by
  obtain ⟨v, -, h⟩ := withVariant_next h
  obtain ⟨ipad, -, h⟩ := withValue_next h
  obtain ⟨opad, -, h⟩ := withValue_next h
  exact goesOnTo_withString h hw fun x u hu h => by cases h; exact ⟨hu, rfl⟩

theorem goesOnTo_execUiter (hw : s.waiting = false) (h : execUiter s = .next t) :
    GoesOnTo s t phaseXoracc := by
  obtain ⟨v, -, h⟩ := withVariant_next h
  obtain ⟨ipad, -, h⟩ := withValue_next h
  obtain ⟨opad, -, h⟩ := withValue_next h
  obtain ⟨u, -, h⟩ := withValue_next h
  cases h
  exact goesOnTo_of_phase_eq hw rfl

theorem goesOnTo_execXoracc (hw : s.waiting = false) (h : execXoracc s = .next t) :
    GoesOnTo s t (if s.j = s.snap.iter then phaseWriteout else phaseUiter) := by
  obtain ⟨x, -, h⟩ := withValue_next h
  obtain ⟨u, -, h⟩ := withValue_next h
  cases h
  exact goesOnTo_of_phase_eq hw rfl

theorem goesOnTo_execWriteout (hw : s.waiting = false) (h : execWriteout s = .next t) :
    GoesOnTo s t (if s.i = s.nblk then phaseFinish else phaseU1) := by
  obtain ⟨v, x, -, -, hwrite⟩ := execWriteout_next h
  obtain ⟨l, n, hstate⟩ := writeoutOf_snd v x s
  rw [hstate] at hwrite
  have hgoes := goesOnTo_withWrite (p := if s.i = s.nblk then phaseFinish else phaseU1) hwrite
    fun m hm => by
      cases hm
      rw [nextBlock_eq]
      exact ⟨hw, rfl⟩
  exact hgoes

end

/-- Settles O28: one lemma a micro-operation; no command is named by a phase. -/
theorem successorsAreThoseOfTheTable : Obligations.SuccessorsAreThoseOfTheTable := by
  intro i s t hi hphase hw h
  cases i with
  | nop | deriveSha1 | deriveSha256 | deriveSha512 => cases hi
  | idle => cases h; exact goesOnTo_of_phase_eq hw (Code.uop.inj hphase).symm
  | check => exact goesOnTo_execCheck hw h
  | keyload => exact goesOnTo_execKeyload hw h
  | precomp => exact goesOnTo_execPrecomp hw h
  | u1 => exact goesOnTo_execU1 hw h
  | uiter => exact goesOnTo_execUiter hw h
  | xoracc => exact goesOnTo_execXoracc hw h
  | writeout => exact goesOnTo_execWriteout hw h
  | finish => cases h; exact goesOnTo_of_phase_eq hw rfl

/-! ## Shorter and longer outputs -/

/-- Blocks past the end of the output add nothing to it (R90). -/
theorem pbkdf2Blocks_of_blockCount_le (c : HashCores) (v : Variant) (p salt : List Byte)
    (iters : Nat) {outLen b : Nat} (h : blockCount v outLen ≤ b) :
    pbkdf2Blocks c v p salt iters outLen b = pbkdf2 c v p salt iters outLen := by
  induction b, h using Nat.le_induction with
  | base => rfl
  | succ b hb ih =>
    have hfull : outLen ≤ b * digestSize v :=
      (le_blockCount_mul v outLen).trans (Nat.mul_le_mul_right _ hb)
    rw [pbkdf2Blocks_succ, ih, Nat.sub_eq_zero_of_le hfull, Nat.min_zero, List.take_zero,
      List.append_nil]

/-- Settles O53: both outputs are cut from the blocks of the longer one. -/
theorem shorterOutputIsAPrefix : Obligations.ShorterOutputIsAPrefix := by
  intro c v p salt iters short long h
  refine ⟨?_, length_pbkdf2 ..⟩
  calc pbkdf2 c v p salt iters short
      = pbkdf2Blocks c v p salt iters short (blockCount v long) :=
        (pbkdf2Blocks_of_blockCount_le c v p salt iters (blockCount_mono v h)).symm
    _ = (pbkdf2Blocks c v p salt iters long (blockCount v long)).take short := by
        rw [pbkdf2Blocks, pbkdf2Blocks, List.take_take, Nat.min_eq_left h]
    _ = (pbkdf2 c v p salt iters long).take short := rfl

end Sys2Proof.Machine

/-! PROOFS of family 43_commands. What each word presented at CMD does, busy and idle, what the other
accesses of the register port leave alone, and which instruction sets OVR. -/

namespace Sys2Proof.Machine

/-! ## Words at CMD -/

section
variable {s : State} {w : Word}

/-- R63: the words that decode are 0x0 to 0x3. -/
theorem toNat_le_three_of_decodeCmd_ok {i : Instr} (h : decodeCmd w = .ok i) : w.toNat ≤ 3 := by
  have he := encode_of_decodeCmd_ok h
  cases i with
  | nop | deriveSha1 | deriveSha256 | deriveSha512 => cases he; decide
  | _ => cases he

/-- R63, R97: a word above 3 is an illegal command. -/
theorem presentCommand_of_three_lt (h : 3 < w.toNat) (s : State) :
    presentCommand w s = .next (illegalCommand s) := by
  unfold presentCommand
  split
  · next hd => exact absurd (toNat_le_three_of_decodeCmd_ok hd) (Nat.not_le.mpr h)
  · rfl

/-- R97: a word other than NOP's is a DERIVE or an illegal command. -/
theorem presentCommand_of_ne_zero (h : w ≠ 0) (s : State) :
    (∃ v, presentCommand w s = derive v s) ∨ presentCommand w s = .next (illegalCommand s) := by
  cases hd : decodeCmd w with
  | error e => exact .inr (by rw [presentCommand, hd])
  | ok i =>
    rw [presentCommand_of_decodeCmd_ok hd]
    have he := encode_of_decodeCmd_ok hd
    cases i with
    | nop => exact absurd (Code.cmd.inj he) h
    | deriveSha1 => exact .inl ⟨.sha1, rfl⟩
    | deriveSha256 => exact .inl ⟨.sha256, rfl⟩
    | deriveSha512 => exact .inl ⟨.sha512, rfl⟩
    | _ => cases he

/-- R99, R105: while busy a NOP is ignored and every other word is dropped. -/
theorem presentCommand_of_busy (w : Word) (hb : s.busy = true) :
    presentCommand w s = .next (if w = 0 then s else dropCommand s) := by
  by_cases h0 : w = 0
  · subst h0
    rfl
  · rw [if_neg h0]
    rcases presentCommand_of_ne_zero h0 s with ⟨v, h⟩ | h
    · rw [h, derive_eq, if_pos hb]
    · rw [h, illegalCommand, if_pos hb]

/-- R104: an idle engine rejects a word above 3. -/
theorem presentCommand_illegal_of_idle (hb : s.busy = false) (h : 3 < w.toNat) :
    presentCommand w s = .next (rejectCommand s) := by
  rw [presentCommand_of_three_lt h, illegalCommand, if_neg (by rw [hb]; exact Bool.false_ne_true)]

/-- R27: the aligned write to CMD presents its word, with the reply already given. -/
theorem hostAccess_cmd (w : Word) (s : State) :
    hostAccess ⟨s.platform.regBase + 0x0C, 4, true, w⟩ s =
      presentCommand w { s with reply := some ⟨none, .ok⟩ } :=
  hostAccess_write (by decide) (by decide) w s

end

/-- Settles O9: the decoder's own case, then the same one behind the access. -/
theorem commandWhileBusyIsDropped : Obligations.CommandWhileBusyIsDropped := by
  intro s w hb
  refine ⟨presentCommand_of_busy w hb, none, ?_⟩
  have hreplied : State.busy { s with reply := some ⟨none, .ok⟩ } = true := hb
  rw [hostAccess_cmd, presentCommand_of_busy w hreplied]
  split <;> rfl

/-- Settles O10: the rejection at the decoder, and the same one behind the access. -/
theorem illegalCommandIsRejectedWhenIdle : Obligations.IllegalCommandIsRejectedWhenIdle := by
  intro s w hb h
  refine ⟨presentCommand_illegal_of_idle hb h, none, ?_⟩
  rw [hostAccess_cmd]
  exact presentCommand_illegal_of_idle hb h

/-! ## Commands that decode -/

/-- Settles O7: NOP's meaning is the state it is given. -/
theorem nopHasNoEffect : Obligations.NopHasNoEffect := fun _ => rfl

/-- Settles O11: IDLE's meaning is the state it is given. -/
theorem idleChangesNothing : Obligations.IdleChangesNothing := fun _ => rfl

/-- Settles O8: each of the three commands is `derive` of its variant, which an idle engine accepts. -/
theorem deriveIsAcceptedWhenIdle : Obligations.DeriveIsAcceptedWhenIdle := by
  intro i v s hm hp
  have hderive : exec i s = derive v s := by
    simp only [List.mem_cons, Prod.mk.injEq, List.not_mem_nil, or_false] at hm
    obtain ⟨rfl, rfl⟩ | ⟨rfl, rfl⟩ | ⟨rfl, rfl⟩ := hm <;> rfl
  rw [hderive, derive_eq, (busy_eq_false s).mpr hp]
  rfl

/-! ## What the other accesses leave alone -/

/-- From `s` to `t` at most IE, the parameter registers, the reply, the status bits that the host can
clear, and the record of what it has seen are other (R24, R26, R28, R126). -/
def OnlyTouchesHostFields (s t : State) : Prop :=
  t = { s with
    ie := t.ie, regs := t.regs, reply := t.reply, unseen := t.unseen
    done := t.done, err := t.err, errcode := t.errcode, ovr := t.ovr }

/-- R19: the address of an access inside the window is the base and the offset. -/
theorem eq_add_of_windowOffset {base addr : Nat} {off : BitVec 6}
    (h : windowOffset base addr = some off) : addr = base + off.toNat := by
  unfold windowOffset Config.regWindow at h
  split at h
  · cases h
    rw [BitVec.toNat_ofNat]
    omega
  · cases h

/-- R19: an address outside the window has no offset. -/
theorem windowOffset_eq_none {base addr : Nat} (h : addr < base ∨ base + 0x40 ≤ addr) :
    windowOffset base addr = none :=
  if_neg (by simp only [Config.regWindow]; omega)

/-- R22: a register stands at its own offset only. -/
theorem eq_regOffset_of_regAt {off : BitVec 6} {r : Reg} (h : regAt off = some r) :
    off = regOffset r := by
  have hall : ∀ off, (regAt off).all (fun r => off = regOffset r) = true := by decide
  simpa [h] using hall off

section
variable {s t : State}

/-- A register write other than of CMD and of SRST. -/
theorem onlyTouchesHostFields_writeReg {r : Reg} {w : Word} (hcmd : r ≠ .cmd)
    (hctrl : r = .ctrl → w.getLsbD 1 = false) (h : writeReg r w s = .next t) :
    OnlyTouchesHostFields s t := by
  cases r with
  | cmd => exact absurd rfl hcmd
  | ctrl =>
    simp only [writeReg, writeCtrl, hctrl rfl] at h
    cases h
    rfl
  | _ => cases h; rfl

/-- A write at an offset other than CMD's, and other than of SRST. -/
theorem onlyTouchesHostFields_writeOffset {off : BitVec 6} {w : Word} (hcmd : off ≠ 0x0C#6)
    (hctrl : off = 0x04#6 → w.getLsbD 1 = false) (h : writeOffset off w s = .next t) :
    OnlyTouchesHostFields s t := by
  unfold writeOffset at h
  split at h
  · next r hr =>
    obtain rfl := eq_regOffset_of_regAt hr
    exact onlyTouchesHostFields_writeReg (fun hc => hcmd (by rw [hc]; rfl))
      (fun hc => hctrl (by rw [hc]; rfl)) h
  · cases h
    rfl

/-- An access inside the window, refused, reading or writing. -/
theorem onlyTouchesHostFields_windowAccess {off : BitVec 6} {a : Access}
    (hcmd : ¬(a.write = true ∧ off = 0x0C#6))
    (hctrl : ¬(a.write = true ∧ off = 0x04#6 ∧ a.wdata.getLsbD 1 = true))
    (h : windowAccess off a s = .next t) : OnlyTouchesHostFields s t := by
  unfold windowAccess at h
  split at h
  · split at h
    · next hw =>
      exact onlyTouchesHostFields_writeOffset (s := { s with reply := some ⟨none, .ok⟩ })
        (fun hoff => hcmd ⟨hw, hoff⟩)
        (fun hoff => Bool.eq_false_iff.mpr fun hb => hctrl ⟨hw, hoff, hb⟩) h
    · rw [noteRead_eq] at h
      cases h
      rfl
  · cases h
    rfl

end

/-- Settles O41: outside the window there is no offset; inside, an access that is neither of the two
excluded writes touches the host's fields only. -/
theorem hostAccessLeavesTheSequencerAlone : Obligations.HostAccessLeavesTheSequencerAlone := by
  intro s a
  refine ⟨fun hout => by rw [hostAccess, windowOffset_eq_none hout], fun t h hcmd hctrl => ?_⟩
  unfold hostAccess at h
  split at h
  · next off hoff =>
    rw [eq_add_of_windowOffset hoff] at hcmd hctrl
    exact onlyTouchesHostFields_windowAccess (fun ⟨hw, ho⟩ => hcmd ⟨hw, by rw [ho]; rfl⟩)
      (fun ⟨hw, ho, hb⟩ => hctrl ⟨hw, by rw [ho]; rfl, hb⟩) h
  · cases h
    rfl

/-! ## OVR -/

section
variable {s t : State} {i : Instr}

/-- R105: a DERIVE sets OVR exactly when it is dropped. -/
theorem ovr_derive {v : Variant} (h : derive v s = .next t) : t.ovr = (s.ovr || s.busy) := by
  rw [derive_eq] at h
  cases h
  cases s.busy with
  | false => exact (Bool.or_false _).symm
  | true => exact (Bool.or_true _).symm

/-- A read keeps OVR, if the rest of the micro-operation does. -/
theorem ovr_withString {addr len : Word} {rest : List Byte → State → Result}
    (h : withString addr len s rest = .next t)
    (hrest : ∀ x u, rest x u = .next t → t.ovr = u.ovr) : t.ovr = s.ovr := by
  rcases withString_next h with ⟨-, h⟩ | ⟨-, -, ⟨-, h⟩ | ⟨k, l, -, rfl⟩ | ⟨l, -, rfl⟩⟩
  · exact hrest [] s h
  · exact hrest _ (popAnswer s) h
  · rfl
  · rfl

/-- WRITEOUT keeps OVR, however its transaction is answered (R90, R113). -/
theorem ovr_execWriteout (h : execWriteout s = .next t) : t.ovr = s.ovr := by
  obtain ⟨v, x, -, -, hwrite⟩ := execWriteout_next h
  obtain ⟨l, n, hstate⟩ := writeoutOf_snd v x s
  rw [hstate] at hwrite
  obtain ⟨-, ⟨-, hend⟩ | ⟨k, m, -, rfl⟩ | ⟨m, -, rfl⟩⟩ := withWrite_next hwrite
  · rw [nextBlock_eq] at hend
    cases hend
    rfl
  · rfl
  · rfl

/-- R25, R111: no micro-operation touches OVR. -/
theorem ovr_exec_uop (hf : i.format = .uop) (h : exec i s = .next t) : t.ovr = s.ovr := by
  cases i with
  | nop | deriveSha1 | deriveSha256 | deriveSha512 => cases hf
  | idle | finish => cases h; rfl
  | check => rcases execCheck_next h with ⟨c, -, rfl⟩ | ⟨n, rfl⟩ <;> rfl
  | keyload =>
    obtain ⟨v, -, h⟩ := withVariant_next h
    exact ovr_withString h fun x u hu => by cases hu; rfl
  | precomp =>
    obtain ⟨v, -, h⟩ := withVariant_next h
    obtain ⟨k, -, h⟩ := withValue_next h
    cases h; rfl
  | u1 =>
    obtain ⟨v, -, h⟩ := withVariant_next h
    obtain ⟨ipad, -, h⟩ := withValue_next h
    obtain ⟨opad, -, h⟩ := withValue_next h
    exact ovr_withString h fun x u hu => by cases hu; rfl
  | uiter =>
    obtain ⟨v, -, h⟩ := withVariant_next h
    obtain ⟨ipad, -, h⟩ := withValue_next h
    obtain ⟨opad, -, h⟩ := withValue_next h
    obtain ⟨u, -, h⟩ := withValue_next h
    cases h; rfl
  | xoracc =>
    obtain ⟨x, -, h⟩ := withValue_next h
    obtain ⟨u, -, h⟩ := withValue_next h
    cases h; rfl
  | writeout => exact ovr_execWriteout h

end

/-- Settles O48: a DERIVE adds BUSY to OVR, a NOP and the micro-operations keep it. -/
theorem overrunIsSetOnlyByADrop : Obligations.OverrunIsSetOnlyByADrop := by
  intro i s t h
  cases i with
  | deriveSha1 | deriveSha256 | deriveSha512 =>
    exact (ovr_derive h).trans (by simp)
  | nop => cases h; simp
  | _ => exact (ovr_exec_uop rfl h).trans (by simp)

end Sys2Proof.Machine

/-! PROOFS of family 60_exceptions. The error end and where a bus error puts it, what the record fixes
after an end or a reset, that the register port does not depend on the key material, and the interrupt. -/

namespace Sys2Proof.Machine

/-! ## The error end -/

/-- Settles O29: `abort` is this update, its record written out by `taint_outRange`. -/
theorem errorEndEffect : Obligations.ErrorEndEffect := by
  intro c s
  rw [← taint_outRange]
  cases c <;> rfl

/-! ## Bus errors -/

section
variable {s : State} {k l : Nat}

/-- A read inside memory that is answered with a bus error is the error end (R46, R112). -/
theorem withString_of_answer_busErr {addr len : Word} (rest : List Byte → State → Result)
    (h : len ≠ 0) (hm : addr.toNat + len.toNat ≤ Config.memorySpace)
    (ha : nextAnswer s = .busErr k l) : withString addr len s rest =
      .next (abort (.busError (busErrorAddr addr.toNat len.toNat k)) (popAnswer s)) := by
  rw [withString, if_neg h, if_neg (Nat.not_lt.mpr hm), ha]

/-- A write inside memory that is answered with a bus error is the error end, with the bytes stored
that landed (R47, R112, U5). -/
theorem withWrite_of_answer_busErr {a n : Nat} (x : List Byte) (rest : State → Result)
    (hm : a + n ≤ Config.memorySpace) (ha : nextAnswer s = .busErr k l) : withWrite a n x s rest =
      .next (abort (.busError (busErrorAddr a n k))
        { popAnswer s with mem := s.mem.writeLanded a x l }) := by
  rw [withWrite, if_neg (Nat.not_lt.mpr hm), ha]

/-- KEYLOAD and U1 with what they need present begin with the read of their input (R79, R87). -/
theorem exec_eq_withString {i : Instr} {addr len : Word} {v : Variant} {ipad opad : HashState}
    (hv : s.var = some v)
    (h : i = .keyload ∧ addr = s.snap.pwAddr ∧ len = s.snap.pwLen ∨
      i = .u1 ∧ s.ipadState = some ipad ∧ s.opadState = some opad ∧
        addr = s.snap.saltAddr ∧ len = s.snap.saltLen) :
    ∃ rest, exec i s = withString addr len s rest := by
  obtain ⟨rfl, rfl, rfl⟩ | ⟨rfl, hi, ho, rfl, rfl⟩ := h
  · exact ⟨_, by rw [exec, execKeyload, withVariant_some hv]⟩
  · exact ⟨_, by rw [exec, execU1_of_some hv hi ho]⟩

/-- A block that starts inside the output has bytes to write (R93). -/
theorem one_le_len_blockRange {v : Variant} (ho : blockOffset v s.i < s.snap.outLen.toNat) :
    1 ≤ (blockRange v s).len :=
  Nat.le_min.mpr ⟨digestSize_pos v, by omega⟩

end

/-- Settles O30: either micro-operation is the read of its input, whose bus error is the error end. -/
theorem readBusErrorEndsTheDerivation : Obligations.ReadBusErrorEndsTheDerivation := by
  intro i s addr len k l v ipad opad hv hi hlen hm ha
  obtain ⟨hle, hlt⟩ := busErrorAddr_inside (k := k) (one_le_toNat hlen) hm
  obtain ⟨rest, hexec⟩ := exec_eq_withString hv hi
  exact ⟨_, hle, hlt, hexec.trans (withString_of_answer_busErr rest hlen hm ha)⟩

/-- Settles O31: WRITEOUT is one write of the block's range, made from a state that differs from `s` in
the model's record only; what landed of it lies in that range. -/
theorem writeBusErrorEndsTheDerivation : Obligations.WriteBusErrorEndsTheDerivation := by
  intro s v x k l hv hx hlen hwf hi ho hm ha
  have hindex : s.i ≠ 0 := fun h0 => by simp [h0] at hi
  have haddr := busErrorAddr_inside (k := k) (one_le_len_blockRange ho) hm
  have hbytes := length_writeoutOf (v := v) (s := s) hlen
  obtain ⟨r, n, hstate⟩ := writeoutOf_snd v x s
  have hexec := execWriteout_of_inside hv hx hindex ho
  rw [hstate] at hexec
  refine ⟨_, hexec.trans (withWrite_of_answer_busErr _ _ hm ha), (contains_iff _ _).mpr haddr, rfl, rfl, rfl, rfl, ⟨rfl, rfl, rfl, rfl, rfl⟩, rfl,
    rfl, rfl, rfl, rfl, fun a hout => ?_⟩
  simp only [Range.contains, decide_eq_false_iff_not] at hout
  exact Memory.readByte_writeLanded_outside _ _ _ _ _ (hbytes ▸ hm) hwf (by omega)

/-! ## What the contract fixes of an output -/

/-- U1 to U3: a recorded byte is not specified, whoever owns its range. -/
theorem specified_eq_false_of_recorded {s : State} {a : Nat} (h : recorded s.unspecified a = true) :
    s.specified a = false := by
  rw [State.specified, h, Bool.not_true, Bool.false_and]

/-- Settles O33: both ends put the output range into the record. -/
theorem outputIsUnspecifiedAfterAnErrorOrReset :
    Obligations.OutputIsUnspecifiedAfterAnErrorOrReset := by
  refine fun s c a hin => ⟨specified_eq_false_of_recorded ?_, fun hb =>
    specified_eq_false_of_recorded ?_⟩
  · rw [abort_unspecified, recorded_taint, hin, Bool.true_or]
  · rw [resetEngine_unspecified, recorded_abandonOutput, hb, hin, Bool.true_and, Bool.true_or]

/-! ## The register port and the key material -/

/-- An operation of the register port does the same with the key material and without it: it neither
decides by it nor puts any of it elsewhere (R120). -/
def IgnoresSecrets (f : State → Result) : Prop :=
  ∀ s t, f s = .next t → f (clearSecrets s) = .next (clearSecrets t)

/-- An operation that always goes on ignores the key material when it commutes with clearing it. -/
theorem ignoresSecrets_next {g : State → State}
    (h : ∀ s, g (clearSecrets s) = clearSecrets (g s)) : IgnoresSecrets fun s => .next (g s) := by
  intro s t hs
  cases hs
  exact congrArg _ (h s)

/-- A DERIVE asks for BUSY only (R97). -/
theorem ignoresSecrets_derive (v : Variant) : IgnoresSecrets (derive v) := by
  rw [funext (derive_eq v)]
  refine ignoresSecrets_next fun s => ?_
  rw [clearSecrets_busy]
  split <;> rfl

theorem ignoresSecrets_illegalCommand : IgnoresSecrets fun s => .next (illegalCommand s) := by
  refine ignoresSecrets_next fun s => ?_
  unfold illegalCommand
  rw [clearSecrets_busy]
  split <;> rfl

/-- A word at CMD is nothing, a DERIVE, or an illegal command, by the word alone (R97). -/
theorem ignoresSecrets_presentCommand (w : Word) : IgnoresSecrets (presentCommand w) := by
  unfold presentCommand
  cases hd : decodeCmd w with
  | error e => exact ignoresSecrets_illegalCommand
  | ok i =>
    cases i with
    | nop => exact ignoresSecrets_next fun _ => rfl
    | deriveSha1 => exact ignoresSecrets_derive .sha1
    | deriveSha256 => exact ignoresSecrets_derive .sha256
    | deriveSha512 => exact ignoresSecrets_derive .sha512
    | _ => cases format_of_decodeCmd_ok hd

/-- What a reset draws, stores and records does not depend on the key material (R122 to R124). -/
theorem resetEngine_clearSecrets (s : State) :
    resetEngine (clearSecrets s) = clearSecrets (resetEngine s) := by
  simp only [resetEngine, abandonOutput_eq]
  rfl

theorem ignoresSecrets_writeReg (r : Reg) (w : Word) : IgnoresSecrets (writeReg r w) := by
  cases r with
  | cmd => exact ignoresSecrets_presentCommand w
  | ctrl =>
    refine ignoresSecrets_next fun s => ?_
    unfold writeCtrl
    split
    · exact resetEngine_clearSecrets s
    · rfl
  | _ => exact ignoresSecrets_next fun _ => rfl

theorem ignoresSecrets_writeOffset (off : BitVec 6) (w : Word) : IgnoresSecrets (writeOffset off w) := by
  unfold writeOffset
  cases regAt off with
  | some r => exact ignoresSecrets_writeReg r w
  | none => exact ignoresSecrets_next fun _ => rfl

/-- What an offset reads as is no key material (R120). -/
theorem readOffset_clearSecrets (off : BitVec 6) (s : State) :
    readOffset off (clearSecrets s) = readOffset off s := by
  unfold readOffset
  cases regAt off with
  | some r => cases r <;> rfl
  | none => rfl

theorem ignoresSecrets_windowAccess (off : BitVec 6) (a : Access) :
    IgnoresSecrets (windowAccess off a) := by
  unfold windowAccess
  cases portAccepts off a.size with
  | false => exact ignoresSecrets_next fun _ => rfl
  | true =>
    cases a.write with
    | true => exact fun s t h => ignoresSecrets_writeOffset off a.wdata _ t h
    | false =>
      refine ignoresSecrets_next fun s => ?_
      rw [readOffset_clearSecrets, noteRead_eq, noteRead_eq]
      rfl

/-- The whole register port (R19, R120). -/
theorem ignoresSecrets_hostAccess (a : Access) : IgnoresSecrets (hostAccess a) := by
  intro s t h
  unfold hostAccess at h ⊢
  rw [clearSecrets_platform]
  cases hoff : windowOffset s.platform.regBase a.addr with
  | some off =>
    rw [hoff] at h
    exact ignoresSecrets_windowAccess off a s t h
  | none =>
    rw [hoff] at h
    cases h
    rfl

/-- Settles O42: both states have the same one without key material, so the two states reached have it
too, and the reply, the status word and the interrupt are functions of that. -/
theorem keyMaterialIsNotReadable : Obligations.KeyMaterialIsNotReadable := by
  intro s t t' a k u x p q h h'
  have ht := ignoresSecrets_hostAccess a _ _ h
  have ht' := ignoresSecrets_hostAccess a _ _ h'
  have hclear : clearSecrets t = clearSecrets t' := Host.Outcome.next.inj (ht.symm.trans ht')
  have hreply := congrArg State.reply hclear
  have hstatus := congrArg statusWord hclear
  have hirq := congrArg irq hclear
  exact ⟨hreply, hstatus, hirq⟩

/-! ## The interrupt -/

/-- R115: once DONE is up the interrupt is IE. -/
theorem irq_of_done {s : State} (h : s.done = true) : irq s = s.ie := by
  rw [irq, h, Bool.and_true]

/-- Settles O43: both ends set DONE and keep IE, and a reset clears IE. -/
theorem interruptFollowsDone : Obligations.InterruptFollowsDone := by
  refine fun s c => ⟨Bool.and_eq_true_iff, fun t h => ?_, irq_of_done (abort_done s c), ?_⟩
  · cases h
    exact irq_of_done rfl
  · rw [irq, resetEngine_ie, Bool.false_and]

end Sys2Proof.Machine

/-! PROOFS of family 70_reset_and_hazards. What a reset puts into the engine and into memory (R122 to
R124), and WRITEOUT under a race (R126, U3). -/

namespace Sys2Proof.Machine

/-! ## WRITEOUT under a race -/

section
variable {s : State} {v : Variant} {x : List Byte}

/-- Under a race WRITEOUT stores the raced bytes of the block and draws free bytes once; the block joins
the record if an input was disturbed (U3). -/
theorem writeoutOf_of_raced (h : raced (blockRange v s) s = true) : writeoutOf v x s =
    (racedBytes (blockRange v s).start (x.take (blockRange v s).len) s, { s with
      draws := s.draws + 1
      unspecified := if s.disturbed then taint (blockRange v s) s.unspecified
        else s.unspecified }) :=
  outputOf_raced h

/-- Byte `k` of a raced block: free if an input was disturbed or an agent wrote it, else `T[k]`
(R126, U3). -/
theorem getD_writeoutOf_of_raced (h : raced (blockRange v s) s = true)
    (hx : x.length = digestSize v) {k : Nat} (hk : k < (blockRange v s).len) :
    (writeoutOf v x s).1.getD k 0#8 =
      if s.disturbed = true ∨ recorded s.unspecified ((blockRange v s).start + k) = true then
        Config.freeByte s.draws k
      else x.getD k 0#8 := by
  have hlen : k < (x.take (blockRange v s).len).length := by
    rw [List.length_take, hx]
    exact lt_min hk (lt_of_lt_of_le hk (min_le_left _ _))
  have htake : (x.take (blockRange v s).len).getD k 0#8 = x.getD k 0#8 := by
    rw [List.getD_eq_getElem?_getD, List.getElem?_take_of_lt hk, List.getD_eq_getElem?_getD]
  rw [writeoutOf_of_raced h, getD_racedBytes hlen, htake]
  simp only [Bool.or_eq_true]

/-- A range joins the record under a condition, and the record keeps what it had. -/
theorem recorded_taint_if (d : Bool) (r : Range) (l : List Range) (a : Nat) :
    recorded (if d then taint r l else l) a = (recorded l a || d && r.contains a) := by
  cases d with
  | false => rw [if_neg nofun, Bool.false_and, Bool.or_false]
  | true => rw [if_pos rfl, recorded_taint, Bool.true_and, Bool.or_comm]

/-- A raced WRITEOUT that is answered OK completes, with the successor of the table (R85, R126). -/
theorem execWriteout_of_raced (hv : s.var = some v) (ht : s.t = some x) (hi : s.i ≠ 0)
    (ho : blockOffset v s.i < s.snap.outLen.toNat)
    (hm : (blockRange v s).start + (blockRange v s).len ≤ Config.memorySpace)
    (ha : nextAnswer s = .ok) (h : raced (blockRange v s) s = true) :
    execWriteout s = .next { s with
      bus := s.bus.tail
      mem := s.mem.writeBytes (blockRange v s).start (writeoutOf v x s).1
      i := if s.i = s.nblk then s.i else s.i + 1
      phase := if s.i = s.nblk then phaseFinish else phaseU1
      unspecified := if s.disturbed then taint (blockRange v s) s.unspecified else s.unspecified
      draws := s.draws + 1 } := by
  have hanswer : nextAnswer (writeoutOf v x s).2 = .ok := by rwa [writeoutOf_of_raced h]
  rw [execWriteout_of_inside hv ht hi ho, withWrite_of_answer_ok hm hanswer, nextBlock_eq,
    ← ofNat_toNat_add_one, writeoutOf_of_raced h]
  rfl

/-- What every byte of memory reads as once the bytes of a block are stored (R47, R90). -/
theorem readByte_writeoutOf (hx : x.length = digestSize v)
    (hm : (blockRange v s).start + (blockRange v s).len ≤ Config.memorySpace)
    (hwf : Memory.wf s.mem = true) (a : Nat) :
    (s.mem.writeBytes (blockRange v s).start (writeoutOf v x s).1).readByte a =
      if (blockRange v s).contains a = true then
        (writeoutOf v x s).1.getD (a - (blockRange v s).start) 0#8
      else s.mem.readByte a := by
  rw [← length_writeoutOf hx] at hm
  simp only [Memory.readByte_writeBytes _ _ _ _ hm hwf, length_writeoutOf hx, contains_iff]

end

/-- Settles O26: the completed state is `execWriteout_of_raced`'s; memory follows from the bytes stored,
and the record from what a race adds to it. -/
theorem racedWriteoutStillCompletes : Obligations.RacedWriteoutStillCompletes := by
  intro s v x hv hx hlen hwf hi ho hm ha hraced
  have hindex : s.i ≠ 0 := fun h0 => by simp [h0] at hi
  have hread := readByte_writeoutOf hlen hm hwf
  refine ⟨_, execWriteout_of_raced hv hx hindex ho hm ha hraced, rfl, rfl, fun a hout => ?_,
    fun k hk => ?_, recorded_taint_if _ _ _, rfl⟩
  · exact (hread a).trans (if_neg (by rw [hout]; nofun))
  · have hin : (blockRange v s).contains ((blockRange v s).start + k) = true :=
      (contains_iff _ _).mpr ⟨Nat.le_add_right _ _, Nat.add_lt_add_left hk _⟩
    refine ((hread _).trans (if_pos hin)).trans ?_
    rw [Nat.add_sub_cancel_left, getD_writeoutOf_of_raced hraced hlen hk]

/-! ## Reset -/

section
variable {s : State}

/-- After a reset a register reads as in the state after reset, whatever the engine was doing (R124). -/
theorem readReg_resetEngine (r : Reg) : readReg r (resetEngine s) = readReg r State.reset := by
  cases r <;> rfl

/-- What every byte of memory reads as after a reset: a free byte where a running derivation would have
put its output, as before elsewhere (U2, R124). -/
theorem readByte_resetEngine (hm : Memory.wf s.mem = true) (a : Nat) :
    (s.busy = false ∨ s.snap.outRange.contains a = false →
      (resetEngine s).mem.readByte a = s.mem.readByte a) ∧
    (s.busy = true → s.snap.outRange.contains a = true → a < 2 ^ 32 →
      (resetEngine s).mem.readByte a = Config.freeByte s.draws (a - s.snap.outAddr.toNat)) := by
  rw [resetEngine_mem, readByte_abandonOutput hm]
  refine ⟨fun h => if_neg ?_, fun hb hin ha => if_pos ⟨hb, hin, ha⟩⟩
  rintro ⟨hb, hin, -⟩
  rcases h with h | h
  · exact absurd (h.symm.trans hb) nofun
  · exact absurd (h.symm.trans hin) nofun

/-- A reset of an idle engine leaves memory as it is (R124). -/
theorem mem_resetEngine_of_idle (h : s.busy = false) : (resetEngine s).mem = s.mem := by
  rw [resetEngine_mem, abandonOutput_idle s h]

end

/-- The state after reset is a fixed point of the reset (R124). -/
theorem resetEngine_reset : resetEngine State.reset = State.reset := by
  rw [resetEngine, abandonOutput_idle _ rfl]

theorem statusWord_reset : statusWord State.reset = 0 := rfl

theorem ctrlWord_reset : ctrlWord State.reset = 0 := rfl

/-- Settles O44: the event is the reset; the elements are those of the state after reset, which the
registers read, and memory is what an abandoned output leaves. -/
theorem hardwareResetValues : Obligations.HardwareResetValues := by
  intro s rest h
  have hreg := readReg_resetEngine (s := { s with pending := rest })
  have hmem := readByte_resetEngine (s := { s with pending := rest })
  exact ⟨_, step_of_pending_cons h, rfl, rfl, rfl, rfl, rfl, rfl, rfl, rfl, rfl, rfl, rfl, rfl, rfl, rfl,
    ⟨rfl, rfl, rfl, rfl, rfl⟩, rfl, rfl, rfl, (hreg .status).trans statusWord_reset,
    (hreg .ctrl).trans ctrlWord_reset, hreg .id, rfl, rfl, rfl, rfl,
    fun hidle => mem_resetEngine_of_idle hidle, hmem⟩

/-- Settles O45: the registers are read at each offset of the map. -/
theorem resetStateValues : Obligations.ResetStateValues :=
  ⟨rfl, statusWord_reset, ctrlWord_reset, by decide, rfl, rfl, rfl, ⟨rfl, rfl, rfl, rfl, rfl⟩, rfl,
    resetEngine_reset⟩

/-- Settles O54: the state after reset is what a reset of it gives, and a reset establishes the
invariant. -/
theorem resetMeetsTheInvariant : Obligations.ResetMeetsTheInvariant := by
  have hinv : Inv (resetEngine State.reset) := inv_resetEngine rfl
  rwa [resetEngine_reset] at hinv

end Sys2Proof.Machine
